-- ==== Sys2Proof/Word.lean ====
section
/-! DEFINITION. The word types of ITS8-CORE (00_scope.md R5, R6). -/

namespace Sys2Proof

/-- An 8-bit quantity: a register, a memory cell, an operand byte, a data address (00 R5). -/
abbrev Byte := BitVec 8

/-- A value of the instruction pointer: 9 bits (10 R13, decision D6). -/
abbrev Ptr := BitVec 9

/-- A control word of the decode ROM: 16 bits (30 R55). -/
abbrev CtrlWord := BitVec 16

end Sys2Proof
end

