-- ==== Sys2Proof/Syntax.lean ====
section
/-! DEFINITION. The names of registers and flags and the syntax of the 50 instructions
(spec/opcode_table.json, 30_encoding.md R58, R77). -/

namespace Sys2Proof

/-- The three general registers (10 R10). -/
inductive Reg where
  | A
  | B
  | C
  deriving DecidableEq, Repr

/-- The four condition flags, as the conditional jumps name them (10 R17, 43 R140). -/
inductive Flag where
  | S
  | Z
  | C
  | V
  deriving DecidableEq, Repr

/-- Operand modes of an opcode (30 R50): whether an operand byte follows, and what it means. -/
inductive Mode where
  | none
  | immediate
  | address
  deriving DecidableEq, Repr

/-- The functions of the ALU core (40 R80). -/
inductive AluFn where
  | add
  | sub
  | and
  | or
  | xor
  | not
  deriving DecidableEq, Repr

/-- The instructions: one constructor per row of the opcode table. `n` is an immediate byte
(format F2I), `t` an address byte (format F2A), both used exactly as stored (30 R51, R53). -/
inductive Instr where
  -- arithmetic and logic, 0x02 to 0x19 (40_alu.md)
  | addB
  | addC
  | subB
  | subC
  | sbbB
  | sbbC
  | anaB
  | anaC
  | oraB
  | oraC
  | xraB
  | xraC
  | cmpB
  | cmpC
  | inrA
  | inrB
  | inrC
  | dcrA
  | dcrB
  | dcrC
  | cma
  | adi (n : Byte)
  | sui (n : Byte)
  | cpi (n : Byte)
  -- register moves and immediate loads, 0x1A to 0x22 (41_moves_and_immediate_loads.md)
  | movAB
  | movAC
  | movBA
  | movBC
  | movCA
  | movCB
  | mviA (n : Byte)
  | mviB (n : Byte)
  | mviC (n : Byte)
  -- loads and stores, 0x23 to 0x2A (42_memory_access.md)
  | lda (t : Byte)
  | ldb (t : Byte)
  | ldc (t : Byte)
  | sta (t : Byte)
  | stb (t : Byte)
  | stc (t : Byte)
  | ldaC
  | staC
  -- jumps, 0x2B to 0x2F (43_branches.md)
  | jmp (t : Byte)
  | js (t : Byte)
  | jz (t : Byte)
  | jc (t : Byte)
  | jv (t : Byte)
  -- call and return, 0x30 and 0x31 (44_call_return.md)
  | call (t : Byte)
  | ret
  -- no-operation and halt, 0x3E and 0x3F (45_nop_halt.md)
  | nop
  | hlt
  deriving DecidableEq, Repr

end Sys2Proof
end

