-- ==== Sys2Proof/Config.lean ====
section
/-! DEFINITION. The parameters of the hardware (00_scope.md R5) and the type of its one open
parameter, the decode ROM (30_encoding.md R54, R57; 92_eei_decisions.md D25). The hardware has no
value that the spec leaves free, so this file holds no opaque constant (93, end of Part 1). -/

namespace Sys2Proof

/-- `MEM_SIZE`: the number of memory cells (00 R5). -/
abbrev Config.memSize : Nat := 256

/-- `RET_SLOT`: the cell that CALL writes and RET reads (00 R5, 10 R24). -/
abbrev Config.retSlot : Byte := 0xFF#8

/-- `RESET_IP`: the instruction pointer after reset, a constant and not a vector (00 R5, 70 R181). -/
abbrev Config.resetIp : Ptr := 0x000#9

/-- `LOAD_BASE`: the address of the first program byte (00 R5). -/
abbrev Config.loadBase : Nat := 0

/-- A decoded control descriptor (30 R54), by class. The field `valid` is the `Option` around an
entry; a field that a class does not use is absent, so the unused codings of 93 U4 have no term.
`rb = none` is the spec's `-`. -/
inductive Desc where
  /-- Class ALU: function, carry-in constant, write-back, operand 1 and destination, operand 2. -/
  | alu (mode : Mode) (fn : AluFn) (cin wb : Bool) (ra : Reg) (rb : Option Reg)
  /-- Class MOV: destination and source; mode None (30 R57 (e)). -/
  | mov (ra rb : Reg)
  /-- Class MVI: destination; mode Immediate (30 R57 (e)). -/
  | mvi (ra : Reg)
  /-- Class LOAD: destination and address register; `none` is mode Address, the operand byte is the
  address; a register is mode None (42 R130). -/
  | load (ra : Reg) (rb : Option Reg)
  /-- Class STORE: the register stored, and the address as for LOAD (42 R130). -/
  | store (ra : Reg) (rb : Option Reg)
  /-- Class JMP; mode Address. -/
  | jmp
  /-- Class JCC: the flag it tests; mode Address. -/
  | jcc (fn : Flag)
  /-- Class CALL; mode Address. -/
  | call
  /-- Class RET; mode None. -/
  | ret
  /-- Class NOP; mode None. -/
  | nop
  /-- Class HLT; mode None. -/
  | hlt
  deriving DecidableEq, Repr

/-- A bound entry of the decode ROM: its descriptor and, for diagnostics only, its mnemonic
(30 R54). -/
structure RomEntry where
  mnemonic : String
  desc : Desc
  deriving DecidableEq, Repr

/-- A value of the parameter `DECODE_ROM` (30 R54): for each of the 256 opcode bytes a bound entry,
or `none`, the required "unknown opcode" arm. It is a constant of the hardware and no state
(10 R25), so it is an argument and never a field of State. -/
abbrev Rom := Byte → Option RomEntry

end Sys2Proof
end

