-- ==== Sys2Proof/Machine/State.lean ====
section
/-! DEFINITION. The architectural state of ITS8-CORE (10_state.md R26), its value after reset, and
the reasons a step could stop. -/

namespace Sys2Proof.Machine

/-- The two faults of the hardware (60 R160, R161). They are the non-`None` values of the `fault` latch
of State. A fault entry is a NEXT state with the latch set (60 R167), so no meaning and no step ever
answers `Host.Outcome.fault` with one of them (log 1: safe, the state after the fault is kept). -/
inductive Fault where
  /-- Raised by the decode stage of the step for an unbound opcode byte (60 R160). Safe: the spec
  names it. -/
  | invalidOpcode
  /-- Raised by a two-byte instruction at address 0xFF that needs its operand byte (60 R161). Safe:
  the spec names it. -/
  | operandFetch
  deriving DecidableEq, Repr

/-- Why an instruction could have no meaning in the model. -/
inductive Refusal where
  /-- Raised by an arm of `exec` whose instruction has no meaning yet; no arm raises it now. Safe. -/
  | notModelled (mnemonic : String)
  deriving DecidableEq, Repr

/-- The four condition flags (10 R17). They are four separate bits and no register: no instruction
reads or writes them as a byte. -/
structure Flags where
  z : Bool
  s : Bool
  v : Bool
  c : Bool
  deriving DecidableEq, Repr

/-- The 256 memory cells (10 R23), as the list of the cells that do not read as an unlisted address
does, addresses strictly rising (the form is `Memory.wf`). -/
abbrev Memory := List Host.Cell

/-- The complete architectural state (10 R26). -/
structure State where
  /-- Register `A` (10 R10). -/
  a : Byte
  /-- Register `B` (10 R10). -/
  b : Byte
  /-- Register `C` (10 R10). -/
  c : Byte
  /-- The instruction pointer `IP` (10 R13). -/
  ip : Ptr
  /-- The flags `F.Z`, `F.S`, `F.V`, `F.C` (10 R17). -/
  flags : Flags
  /-- The latch `halted` (10 R20). -/
  halted : Bool
  /-- The latch `fault`; `none` is the spec's `None` (10 R21). -/
  fault : Option Fault
  /-- The memory `M` (10 R23). -/
  mem : Memory
  deriving DecidableEq, Repr

/-- The state after reset (10 R26, 70 R180): every component zero, false or `None`, every memory cell
0x00. Nothing survives reset, so it is one constant. -/
def State.reset : State where
  a := 0x00#8
  b := 0x00#8
  c := 0x00#8
  ip := Config.resetIp
  flags := ⟨false, false, false, false⟩
  halted := false
  fault := none
  mem := []

end Sys2Proof.Machine
end

