-- ==== Sys2Proof/Machine/Ops.lean ====
section
/-! DEFINITION. The named operations over memory, registers, flags, pointer and latches, and the entry
of a fault (20_memory.md, 10_state.md, 60_exceptions.md). -/

namespace Sys2Proof.Machine

/-! ### Memory -/

/-- What an unlisted address reads as: 0x00, the reset content of every cell (10 R23, 20 R34). -/
def Memory.unlisted : Byte := 0x00#8

/-- The byte listed for address `k`, or what an unlisted address reads as. -/
def Memory.lookup : Memory → Nat → Byte
  | [], _ => Memory.unlisted
  | (j, v) :: rest, k => if k = j then v else Memory.lookup rest k

/-- Lists byte `v` for address `k`, keeping the canonical form: a byte equal to what an unlisted
address reads as is not listed. -/
def Memory.insert : Memory → Nat → Byte → Memory
  | [], k, v => if v = Memory.unlisted then [] else [(k, v)]
  | (j, w) :: rest, k, v =>
    if k < j then (if v = Memory.unlisted then (j, w) :: rest else (k, v) :: (j, w) :: rest)
    else if k = j then (if v = Memory.unlisted then rest else (k, v) :: rest)
    else (j, w) :: Memory.insert rest k v

/-- The canonical form from address `lo` on: addresses strictly rising and inside memory, and no entry
equal to what an unlisted address reads as. -/
def Memory.wfFrom : Nat → Memory → Bool
  | _, [] => true
  | lo, (j, v) :: rest =>
    decide (lo ≤ j) && decide (j < Config.memSize) && decide (v ≠ Memory.unlisted) &&
      Memory.wfFrom (j + 1) rest

/-- The canonical form of a memory. Equal memories are then equal lists. -/
def Memory.wf (m : Memory) : Bool := Memory.wfFrom 0 m

/-- `MemRead(addr, 1)` (00 R6): the content of one cell. It never faults (20 R35). -/
def State.memRead (s : State) (addr : Byte) : Byte := s.mem.lookup addr.toNat

/-- `MemWrite(addr, 1, v)` (00 R6): one cell gets a new content. It never faults (20 R35). -/
def State.memWrite (s : State) (addr v : Byte) : State :=
  { s with mem := s.mem.insert addr.toNat v }

/-! ### Registers, flags, pointer, latches -/

/-- `x[r]` (00 R6). -/
def State.readReg (s : State) (r : Reg) : Byte :=
  match r with
  | .A => s.a
  | .B => s.b
  | .C => s.c

/-- `x[r] <- v` (00 R6). -/
def State.writeReg (s : State) (r : Reg) (v : Byte) : State :=
  match r with
  | .A => { s with a := v }
  | .B => { s with b := v }
  | .C => { s with c := v }

/-- `Flag(f)` (30 R63): the flag that a conditional jump tests. -/
def State.readFlag (s : State) (f : Flag) : Bool :=
  match f with
  | .S => s.flags.s
  | .Z => s.flags.z
  | .C => s.flags.c
  | .V => s.flags.v

/-- All four flags are written together (10 R18). -/
def State.setFlags (s : State) (f : Flags) : State := { s with flags := f }

/-- `IP <- p` (00 R6). -/
def State.setIp (s : State) (p : Ptr) : State := { s with ip := p }

/-- `IP <- IP + n`, in 9 bits; it does not wrap on any value 0 to 257 (10 R14). -/
def State.advance (s : State) (n : Nat) : State := s.setIp (s.ip + BitVec.ofNat 9 n)

/-- `IP[7:0]`: the cell that the pointer names (30 R61), or the low byte of a return address
(44 R151). -/
def State.ipByte (s : State) : Byte := s.ip.setWidth 8

/-- `IP > 255`: the pointer is out of memory (10 R13). -/
def State.outOfMemory (s : State) : Bool := decide (255 < s.ip.toNat)

/-- `halted <- 1` (45 R156). -/
def State.setHalted (s : State) : State := { s with halted := true }

/-- `fault <- f`: fault entry (60 R160 to R162, R167). A fault transfers control nowhere and saves
nothing: its whole effect is the latch, beside the pointer advance that has already happened. There is
no return from a fault (60 R168); only reset clears the latch, by constructing `State.reset`. -/
def State.raise (s : State) (f : Fault) : State := { s with fault := some f }

/-- A terminal state (30 R61): a latched fault, a halt, or a pointer out of memory. A step in it
fetches nothing and changes nothing. -/
def State.terminal (s : State) : Bool := s.fault.isSome || s.halted || s.outOfMemory

end Sys2Proof.Machine
end

