-- ==== Sys2Proof/Machine/Flags.lean ====
section
/-! DEFINITION. The ALU core and its flag computation (40_alu.md R80 to R84). -/

namespace Sys2Proof.Machine

/-- What the ALU core gives: the 8-bit result and the four flag values (40 R80). -/
structure AluOut where
  res : Byte
  flags : Flags
  deriving DecidableEq, Repr

/-- `e2`, the effective second operand (40 R80, R82; for NOT it is zero, R84). -/
def aluEffective (fn : AluFn) (op2 : Byte) : Byte :=
  match fn with
  | .add => op2
  | .sub => ~~~op2
  | .and => op2
  | .or => op2
  | .xor => op2
  | .not => 0x00#8

/-- `zext_9` (00 R6). -/
def zext9 (v : Byte) : BitVec 9 := v.setWidth 9

/-- The exact 9-bit sum of two bytes and the carry-in: at most 511, so it does not wrap (40 R80). -/
def wideSum (x y : Byte) (cin : Bool) : BitVec 9 := zext9 x + zext9 y + (BitVec.ofBool cin).setWidth 9

/-- `wide`, the 9-bit widened value (40 R80; for the logic functions the bitwise result, R84). -/
def aluWide (fn : AluFn) (op1 op2 : Byte) (cin : Bool) : BitVec 9 :=
  match fn with
  | .add => wideSum op1 (aluEffective .add op2) cin
  | .sub => wideSum op1 (aluEffective .sub op2) cin
  | .and => zext9 (op1 &&& op2)
  | .or => zext9 (op1 ||| op2)
  | .xor => zext9 (op1 ^^^ op2)
  | .not => zext9 (~~~op1)

/-- The four flags from the effective operands and the widened value (40 R80, R83). -/
def aluFlags (op1 e2 : Byte) (wide : BitVec 9) : Flags :=
  let res : Byte := wide.setWidth 8
  { z := res == 0x00#8
    s := res.getLsbD 7
    v := op1.getLsbD 7 == e2.getLsbD 7 && res.getLsbD 7 != op1.getLsbD 7
    c := wide.getLsbD 8 }

/-- `AluCore(fn, op1, op2, cin)` (40 R80). -/
def aluCore (fn : AluFn) (op1 op2 : Byte) (cin : Bool) : AluOut :=
  let wide := aluWide fn op1 op2 cin
  { res := wide.setWidth 8, flags := aluFlags op1 (aluEffective fn op2) wide }

end Sys2Proof.Machine
end

