-- ==== Sys2Proof/Machine/Operands.lean ====
section
/-! DEFINITION. The operand forms (30_encoding.md R53, R55, R63; 42_memory_access.md R130) and the
eleven class actions (30 R64), shared by the meanings and by the descriptor machine. An action works on
the state after the opcode fetch and the operand fetch, so `IP` already stands after the instruction. -/

namespace Sys2Proof.Machine

/-- Operand 2 of a class-ALU descriptor (30 R55, 40 R85): a register, the immediate byte, or the
constant 1. -/
def aluOperand2 (s : State) (mode : Mode) (rb : Option Reg) (opnd : Byte) : Byte :=
  match rb with
  | some r => s.readReg r
  | none =>
    match mode with
    | .immediate => opnd
    | .none => 0x01#8
    | .address => 0x01#8

/-- `EA(d, opnd)` (42 R130): the operand byte, or the content of the address register. -/
def effectiveAddr (s : State) (rb : Option Reg) (opnd : Byte) : Byte :=
  match rb with
  | none => opnd
  | some r => s.readReg r

/-- `AluExec` (40 R85): the core on `x[ra]` and `op2`, written back or discarded, and all four flags. -/
def aluAction (fn : AluFn) (cin wb : Bool) (ra : Reg) (op2 : Byte) (s : State) : State :=
  let out := aluCore fn (s.readReg ra) op2 cin
  (if wb then s.writeReg ra out.res else s).setFlags out.flags

/-- Class MOV: `x[ra] <- x[rb]` (41 R120). -/
def movAction (ra rb : Reg) (s : State) : State := s.writeReg ra (s.readReg rb)

/-- Class MVI: `x[ra] <- opnd` (41 R120). -/
def mviAction (ra : Reg) (opnd : Byte) (s : State) : State := s.writeReg ra opnd

/-- Class LOAD: `x[ra] <- MemRead(addr, 1)` (42 R130). -/
def loadAction (ra : Reg) (addr : Byte) (s : State) : State := s.writeReg ra (s.memRead addr)

/-- Class STORE: `MemWrite(addr, 1, x[ra])` (42 R130). -/
def storeAction (ra : Reg) (addr : Byte) (s : State) : State := s.memWrite addr (s.readReg ra)

/-- Classes JMP and JCC when taken: `IP <- zext_9(opnd)` (43 R140). -/
def jumpAction (opnd : Byte) (s : State) : State := s.setIp (zext9 opnd)

/-- Class CALL (44 R150, R151): the pointer, already past the operand, goes to the return slot (its low
8 bits), then the jump. -/
def callAction (opnd : Byte) (s : State) : State :=
  (s.memWrite Config.retSlot s.ipByte).setIp (zext9 opnd)

/-- Class RET (44 R150, R152): the pointer comes from the return slot. -/
def retAction (s : State) : State := s.setIp (zext9 (s.memRead Config.retSlot))

/-- Class NOP: no action (45 R155). -/
def nopAction (s : State) : State := s

/-- Class HLT: `halted <- 1` (45 R156). -/
def hltAction (s : State) : State := s.setHalted

/-! ### The two fetch forms of a meaning

A meaning is called with `IP` at its opcode byte (log 11). -/

/-- A meaning's answer: every instruction of this hardware answers a next state. -/
abbrev Answer := Host.Outcome State Fault Refusal

/-- An instruction of one byte: `IP` advances by 1, then the action (30 R61, R63). -/
def oneByte (action : State → State) (s : State) : Answer := .next (action (s.advance 1))

/-- An instruction that needs its operand byte (30 R63): when the pointer after the opcode is out of
memory the fault OperandFetch is taken and nothing else happens; else `IP` advances past the operand,
then the action. -/
def twoByte (action : State → State) (s : State) : Answer :=
  if (s.advance 1).outOfMemory then .next ((s.advance 1).raise .operandFetch)
  else .next (action (s.advance 2))

/-- A conditional jump (43 R140, 30 R63): taken it is an unconditional jump; not taken it steps over the
operand byte without reading it, so it raises nothing. -/
def condJump (f : Flag) (t : Byte) (s : State) : Answer :=
  if s.readFlag f then twoByte (jumpAction t) s else .next (s.advance 2)

end Sys2Proof.Machine
end

