-- ==== Sys2Proof/Machine/Alu.lean ====
section
/-! DEFINITION. The 24 arithmetic and logic instructions, opcodes 0x02 to 0x19 (40_alu.md R90 to R113). -/

namespace Sys2Proof.Machine

/-- `ADD B` (40 R90): `A` plus `B`. -/
def execAddB (s : State) : Answer :=
  oneByte (fun s => aluAction .add false true .A (s.readReg .B) s) s

/-- `ADD C` (40 R91): `A` plus `C`. -/
def execAddC (s : State) : Answer :=
  oneByte (fun s => aluAction .add false true .A (s.readReg .C) s) s

/-- `SUB B` (40 R92): `A` minus `B`. -/
def execSubB (s : State) : Answer :=
  oneByte (fun s => aluAction .sub true true .A (s.readReg .B) s) s

/-- `SUB C` (40 R93): `A` minus `C`. -/
def execSubC (s : State) : Answer :=
  oneByte (fun s => aluAction .sub true true .A (s.readReg .C) s) s

/-- `SBB B` (40 R94): `A` minus `B` minus 1; `F.C` is not read (R81). -/
def execSbbB (s : State) : Answer :=
  oneByte (fun s => aluAction .sub false true .A (s.readReg .B) s) s

/-- `SBB C` (40 R95): `A` minus `C` minus 1; `F.C` is not read (R81). -/
def execSbbC (s : State) : Answer :=
  oneByte (fun s => aluAction .sub false true .A (s.readReg .C) s) s

/-- `ANA B` (40 R96): `A` AND `B`. -/
def execAnaB (s : State) : Answer :=
  oneByte (fun s => aluAction .and false true .A (s.readReg .B) s) s

/-- `ANA C` (40 R97): `A` AND `C`. -/
def execAnaC (s : State) : Answer :=
  oneByte (fun s => aluAction .and false true .A (s.readReg .C) s) s

/-- `ORA B` (40 R98): `A` OR `B`. -/
def execOraB (s : State) : Answer :=
  oneByte (fun s => aluAction .or false true .A (s.readReg .B) s) s

/-- `ORA C` (40 R99): `A` OR `C`. -/
def execOraC (s : State) : Answer :=
  oneByte (fun s => aluAction .or false true .A (s.readReg .C) s) s

/-- `XRA B` (40 R100): `A` XOR `B`. -/
def execXraB (s : State) : Answer :=
  oneByte (fun s => aluAction .xor false true .A (s.readReg .B) s) s

/-- `XRA C` (40 R101): `A` XOR `C`. -/
def execXraC (s : State) : Answer :=
  oneByte (fun s => aluAction .xor false true .A (s.readReg .C) s) s

/-- `CMP B` (40 R102): the flags of `A` minus `B`; the result is discarded. -/
def execCmpB (s : State) : Answer :=
  oneByte (fun s => aluAction .sub true false .A (s.readReg .B) s) s

/-- `CMP C` (40 R103): the flags of `A` minus `C`; the result is discarded. -/
def execCmpC (s : State) : Answer :=
  oneByte (fun s => aluAction .sub true false .A (s.readReg .C) s) s

/-- `INR A` (40 R104): `A` plus the constant 1. -/
def execInrA (s : State) : Answer :=
  oneByte (aluAction .add false true .A 0x01#8) s

/-- `INR B` (40 R105): `B` plus the constant 1. -/
def execInrB (s : State) : Answer :=
  oneByte (aluAction .add false true .B 0x01#8) s

/-- `INR C` (40 R106): `C` plus the constant 1. -/
def execInrC (s : State) : Answer :=
  oneByte (aluAction .add false true .C 0x01#8) s

/-- `DCR A` (40 R107): `A` minus the constant 1. -/
def execDcrA (s : State) : Answer :=
  oneByte (aluAction .sub true true .A 0x01#8) s

/-- `DCR B` (40 R108): `B` minus the constant 1. -/
def execDcrB (s : State) : Answer :=
  oneByte (aluAction .sub true true .B 0x01#8) s

/-- `DCR C` (40 R109): `C` minus the constant 1. -/
def execDcrC (s : State) : Answer :=
  oneByte (aluAction .sub true true .C 0x01#8) s

/-- `CMA` (40 R110): complement `A`; operand 2 is zero for the flags. -/
def execCma (s : State) : Answer :=
  oneByte (aluAction .not false true .A 0x00#8) s

/-- `ADI n` (40 R111): `A` plus the immediate byte. -/
def execAdi (n : Byte) (s : State) : Answer :=
  twoByte (aluAction .add false true .A n) s

/-- `SUI n` (40 R112): `A` minus the immediate byte. -/
def execSui (n : Byte) (s : State) : Answer :=
  twoByte (aluAction .sub true true .A n) s

/-- `CPI n` (40 R113): the flags of `A` minus the immediate byte; the result is discarded. -/
def execCpi (n : Byte) (s : State) : Answer :=
  twoByte (aluAction .sub true false .A n) s

end Sys2Proof.Machine
end

