-- ==== Sys2Proof/Machine/Jumps.lean ====
section
/-! DEFINITION. The five jumps, opcodes 0x2B to 0x2F (43_branches.md R140 to R145). -/

namespace Sys2Proof.Machine

/-- `JMP t` (43 R141): jump always. -/
def execJmp (t : Byte) (s : State) : Answer :=
  twoByte (jumpAction t) s

/-- `JS t` (43 R142): jump if `F.S` is 1. -/
def execJs (t : Byte) (s : State) : Answer :=
  condJump .S t s

/-- `JZ t` (43 R143): jump if `F.Z` is 1. -/
def execJz (t : Byte) (s : State) : Answer :=
  condJump .Z t s

/-- `JC t` (43 R144): jump if `F.C` is 1. -/
def execJc (t : Byte) (s : State) : Answer :=
  condJump .C t s

/-- `JV t` (43 R145): jump if `F.V` is 1. -/
def execJv (t : Byte) (s : State) : Answer :=
  condJump .V t s

end Sys2Proof.Machine
end

