-- ==== Sys2Proof/Machine/LoadStore.lean ====
section
/-! DEFINITION. The eight loads and stores, opcodes 0x23 to 0x2A (42_memory_access.md R130 to R138). -/

namespace Sys2Proof.Machine

/-- `LDA t` (42 R131): load `A` from the cell at the operand address. -/
def execLda (t : Byte) (s : State) : Answer :=
  twoByte (loadAction .A t) s

/-- `LDB t` (42 R132): load `B` from the cell at the operand address. -/
def execLdb (t : Byte) (s : State) : Answer :=
  twoByte (loadAction .B t) s

/-- `LDC t` (42 R133): load `C` from the cell at the operand address. -/
def execLdc (t : Byte) (s : State) : Answer :=
  twoByte (loadAction .C t) s

/-- `STA t` (42 R134): store `A` to the cell at the operand address. -/
def execSta (t : Byte) (s : State) : Answer :=
  twoByte (storeAction .A t) s

/-- `STB t` (42 R135): store `B` to the cell at the operand address. -/
def execStb (t : Byte) (s : State) : Answer :=
  twoByte (storeAction .B t) s

/-- `STC t` (42 R136): store `C` to the cell at the operand address. -/
def execStc (t : Byte) (s : State) : Answer :=
  twoByte (storeAction .C t) s

/-- `LDA C` (42 R137): load `A` from the cell whose address is in `C`. -/
def execLdaC (s : State) : Answer :=
  oneByte (fun s => loadAction .A (s.readReg .C) s) s

/-- `STA C` (42 R138): store `A` to the cell whose address is in `C`. -/
def execStaC (s : State) : Answer :=
  oneByte (fun s => storeAction .A (s.readReg .C) s) s

end Sys2Proof.Machine
end

