-- ==== Sys2Proof/Machine/Moves.lean ====
section
/-! DEFINITION. The six register moves and three immediate loads, opcodes 0x1A to 0x22
(41_moves_and_immediate_loads.md R120 to R129). -/

namespace Sys2Proof.Machine

/-- `MOV A,B` (41 R121): copy `B` to `A`. -/
def execMovAB (s : State) : Answer :=
  oneByte (movAction .A .B) s

/-- `MOV A,C` (41 R122): copy `C` to `A`. -/
def execMovAC (s : State) : Answer :=
  oneByte (movAction .A .C) s

/-- `MOV B,A` (41 R123): copy `A` to `B`. -/
def execMovBA (s : State) : Answer :=
  oneByte (movAction .B .A) s

/-- `MOV B,C` (41 R124): copy `C` to `B`. -/
def execMovBC (s : State) : Answer :=
  oneByte (movAction .B .C) s

/-- `MOV C,A` (41 R125): copy `A` to `C`. -/
def execMovCA (s : State) : Answer :=
  oneByte (movAction .C .A) s

/-- `MOV C,B` (41 R126): copy `B` to `C`. -/
def execMovCB (s : State) : Answer :=
  oneByte (movAction .C .B) s

/-- `MVI A n` (41 R127): load the immediate byte into `A`. -/
def execMviA (n : Byte) (s : State) : Answer :=
  twoByte (mviAction .A n) s

/-- `MVI B n` (41 R128): load the immediate byte into `B`. -/
def execMviB (n : Byte) (s : State) : Answer :=
  twoByte (mviAction .B n) s

/-- `MVI C n` (41 R129): load the immediate byte into `C`. -/
def execMviC (n : Byte) (s : State) : Answer :=
  twoByte (mviAction .C n) s

end Sys2Proof.Machine
end

