-- ==== Sys2Proof/Machine/Subroutine.lean ====
section
/-! DEFINITION. CALL and RET, opcodes 0x30 and 0x31 (44_call_return.md R150 to R152). -/

namespace Sys2Proof.Machine

/-- `CALL t` (44 R151): save the return address in cell 0xFF and jump. -/
def execCall (t : Byte) (s : State) : Answer :=
  twoByte (callAction t) s

/-- `RET` (44 R152): jump to the address held in cell 0xFF. -/
def execRet (s : State) : Answer :=
  oneByte retAction s

end Sys2Proof.Machine
end

