-- ==== Sys2Proof/Machine/System.lean ====
section
/-! DEFINITION. NOP and HLT, opcodes 0x3E and 0x3F (45_nop_halt.md R155, R156). -/

namespace Sys2Proof.Machine

/-- `NOP` (45 R155): do nothing; only `IP` advances. -/
def execNop (s : State) : Answer :=
  oneByte nopAction s

/-- `HLT` (45 R156): set `halted`; only `IP` advances besides. -/
def execHlt (s : State) : Answer :=
  oneByte hltAction s

end Sys2Proof.Machine
end

