-- ==== Sys2Proof/Machine/Dispatch.lean ====
section
/-! DEFINITION. The dispatch of an instruction to its meaning (30_encoding.md R64). -/

namespace Sys2Proof.Machine

/-- The effect of one instruction on the state in which `IP` stands at its opcode byte (log 11). -/
def exec (i : Instr) (s : State) : Host.Outcome State Fault Refusal :=
  match i with
  | .addB => Sys2Proof.Machine.execAddB s
  | .addC => Sys2Proof.Machine.execAddC s
  | .subB => Sys2Proof.Machine.execSubB s
  | .subC => Sys2Proof.Machine.execSubC s
  | .sbbB => Sys2Proof.Machine.execSbbB s
  | .sbbC => Sys2Proof.Machine.execSbbC s
  | .anaB => Sys2Proof.Machine.execAnaB s
  | .anaC => Sys2Proof.Machine.execAnaC s
  | .oraB => Sys2Proof.Machine.execOraB s
  | .oraC => Sys2Proof.Machine.execOraC s
  | .xraB => Sys2Proof.Machine.execXraB s
  | .xraC => Sys2Proof.Machine.execXraC s
  | .cmpB => Sys2Proof.Machine.execCmpB s
  | .cmpC => Sys2Proof.Machine.execCmpC s
  | .inrA => Sys2Proof.Machine.execInrA s
  | .inrB => Sys2Proof.Machine.execInrB s
  | .inrC => Sys2Proof.Machine.execInrC s
  | .dcrA => Sys2Proof.Machine.execDcrA s
  | .dcrB => Sys2Proof.Machine.execDcrB s
  | .dcrC => Sys2Proof.Machine.execDcrC s
  | .cma => Sys2Proof.Machine.execCma s
  | .adi n => Sys2Proof.Machine.execAdi n s
  | .sui n => Sys2Proof.Machine.execSui n s
  | .cpi n => Sys2Proof.Machine.execCpi n s
  | .movAB => Sys2Proof.Machine.execMovAB s
  | .movAC => Sys2Proof.Machine.execMovAC s
  | .movBA => Sys2Proof.Machine.execMovBA s
  | .movBC => Sys2Proof.Machine.execMovBC s
  | .movCA => Sys2Proof.Machine.execMovCA s
  | .movCB => Sys2Proof.Machine.execMovCB s
  | .mviA n => Sys2Proof.Machine.execMviA n s
  | .mviB n => Sys2Proof.Machine.execMviB n s
  | .mviC n => Sys2Proof.Machine.execMviC n s
  | .lda t => Sys2Proof.Machine.execLda t s
  | .ldb t => Sys2Proof.Machine.execLdb t s
  | .ldc t => Sys2Proof.Machine.execLdc t s
  | .sta t => Sys2Proof.Machine.execSta t s
  | .stb t => Sys2Proof.Machine.execStb t s
  | .stc t => Sys2Proof.Machine.execStc t s
  | .ldaC => Sys2Proof.Machine.execLdaC s
  | .staC => Sys2Proof.Machine.execStaC s
  | .jmp t => Sys2Proof.Machine.execJmp t s
  | .js t => Sys2Proof.Machine.execJs t s
  | .jz t => Sys2Proof.Machine.execJz t s
  | .jc t => Sys2Proof.Machine.execJc t s
  | .jv t => Sys2Proof.Machine.execJv t s
  | .call t => Sys2Proof.Machine.execCall t s
  | .ret => Sys2Proof.Machine.execRet s
  | .nop => Sys2Proof.Machine.execNop s
  | .hlt => Sys2Proof.Machine.execHlt s

end Sys2Proof.Machine
end

