-- ==== Sys2Proof/WellFormed.lean ====
section
/-! DEFINITION. What is accepted as an instruction, as a value of `DECODE_ROM` (30_encoding.md R57)
and as a program image (20_memory.md R38). -/

namespace Sys2Proof

/-- Every instruction term is well-formed: the only fields are operand bytes, and "An operand byte
has no illegal value" (30 R60). The width of `Byte` is the whole check (30 R71: a value that does not
fit in 0 to 255 has no term). -/
def Instr.wf (_ : Instr) : Bool := true

/-- A program image fits in memory (20 R38, 70 R184): at most 256 bytes. -/
def programFits (p : List Byte) : Bool := decide (p.length ≤ Config.memSize)

/-- The classes of a bound entry that belong to the arithmetic and logic range (30 R57 (b)). -/
def Desc.isAlu : Desc → Bool
  | .alu .. => true
  | _ => false

/-- The classes MOV and MVI (30 R57 (b)). -/
def Desc.isMove : Desc → Bool
  | .mov .. | .mvi .. => true
  | _ => false

/-- The classes LOAD and STORE (30 R57 (b)). -/
def Desc.isMemory : Desc → Bool
  | .load .. | .store .. => true
  | _ => false

/-- The classes JMP and JCC (30 R57 (b)). -/
def Desc.isJump : Desc → Bool
  | .jmp | .jcc _ => true
  | _ => false

/-- The descriptor of `CMA` as far as 30 R57 (d) fixes it: mode None, ALU, NOT, wb 1, ra A. -/
def Desc.isCma : Desc → Bool
  | .alu .none .not _ true .A _ => true
  | _ => false

/-- Every entry of the byte range `lo` to `hi` (both included) is bound with a descriptor that
satisfies `p`. -/
def Rom.allIn (rom : Rom) (lo hi : Nat) (p : Desc → Bool) : Bool :=
  (List.range' lo (hi + 1 - lo)).all fun k =>
    match rom (BitVec.ofNat 8 k) with
    | some e => p e.desc
    | none => false

/-- Some entry of the byte range `lo` to `hi` (both included) is bound and satisfies `p`. -/
def Rom.someIn (rom : Rom) (lo hi : Nat) (p : RomEntry → Bool) : Bool :=
  (List.range' lo (hi + 1 - lo)).any fun k =>
    match rom (BitVec.ofNat 8 k) with
    | some e => p e
    | none => false

/-- Every entry of the byte range `lo` to `hi` (both included) is unbound. -/
def Rom.unboundIn (rom : Rom) (lo hi : Nat) : Bool :=
  (List.range' lo (hi + 1 - lo)).all fun k => (rom (BitVec.ofNat 8 k)).isNone

/-- Constraint (a) of 30 R57: which bytes are unbound. -/
def Rom.wfUnbound (rom : Rom) : Bool :=
  rom.unboundIn 0x00 0x01 && rom.unboundIn 0x32 0x3D && rom.unboundIn 0x40 0xFF

/-- Constraint (b) of 30 R57: the class of each bound range. -/
def Rom.wfClasses (rom : Rom) : Bool :=
  rom.allIn 0x02 0x19 Desc.isAlu && rom.allIn 0x1A 0x22 Desc.isMove &&
  rom.allIn 0x23 0x2A Desc.isMemory && rom.allIn 0x2B 0x2F Desc.isJump &&
  rom.allIn 0x30 0x31 (fun d => d == .call || d == .ret) &&
  rom.someIn 0x30 0x31 (fun e => e.desc == .call) && rom.someIn 0x30 0x31 (fun e => e.desc == .ret)

/-- Constraint (c) of 30 R57: the five bytes that the source states. -/
def Rom.wfSourceBytes (rom : Rom) : Bool :=
  rom 0x02#8 == some ⟨"ADD B", .alu .none .add false true .A (some .B)⟩ &&
  rom 0x20#8 == some ⟨"MVI A", .mvi .A⟩ &&
  rom 0x21#8 == some ⟨"MVI B", .mvi .B⟩ &&
  rom 0x3E#8 == some ⟨"NOP", .nop⟩ &&
  rom 0x3F#8 == some ⟨"HLT", .hlt⟩

/-- Constraint (d) of 30 R57: the instructions that the source names without a byte. The descriptor of
`MOV A,B` is that of 41 R121; its direction is decision D2 (log 9). -/
def Rom.wfNamed (rom : Rom) : Bool :=
  rom.someIn 0x02 0x19 (· == ⟨"INR A", .alu .none .add false true .A none⟩) &&
  rom.someIn 0x02 0x19 (fun e => e.mnemonic == "CMA" && e.desc.isCma) &&
  rom.someIn 0x1A 0x22 (· == ⟨"MOV A,B", .mov .A .B⟩) &&
  rom.someIn 0x23 0x2A (· == ⟨"LDA", .load .A none⟩) &&
  rom.someIn 0x23 0x2A (· == ⟨"LDA C", .load .A (some .C)⟩) &&
  rom.someIn 0x2B 0x2F (fun e => e.desc == .jmp) &&
  rom.someIn 0x2B 0x2F (fun e => e.desc == .jcc .S) &&
  rom.someIn 0x2B 0x2F (fun e => e.desc == .jcc .Z) &&
  rom.someIn 0x2B 0x2F (fun e => e.desc == .jcc .C) &&
  rom.someIn 0x2B 0x2F (fun e => e.desc == .jcc .V)

/-- The mnemonics of the bound entries, in the order of their bytes. -/
def Rom.mnemonics (rom : Rom) : List String :=
  (List.range 256).filterMap fun k => (rom (BitVec.ofNat 8 k)).map RomEntry.mnemonic

/-- Constraint (f) of 30 R57: "mnemonic keys are unique". -/
def Rom.wfMnemonics (rom : Rom) : Bool := decide rom.mnemonics.Nodup

/-- A value of the parameter `DECODE_ROM` (30 R57). Constraint (e), the modes of the classes, holds
by the type `Desc`. A table that fails this check is refused (93 U4). -/
def Rom.wf (rom : Rom) : Bool :=
  rom.wfUnbound && rom.wfClasses && rom.wfSourceBytes && rom.wfNamed && rom.wfMnemonics

end Sys2Proof
end

