-- ==== Sys2Proof/Decode.lean ====
section
/-! DEFINITION. Decoding and encoding (30_encoding.md): the opcode map, the default contents of the
decode ROM with its stored control words, the decoder from bytes and the encoder to bytes. -/

namespace Sys2Proof

/-! ### The decode ROM (30 R54, R55, R58) -/

/-- The operand mode of a descriptor (30 R54, R57 (e); for LOAD and STORE 42 R130). -/
def Desc.mode : Desc → Mode
  | .alu m .. => m
  | .mov .. => .none
  | .mvi _ => .immediate
  | .load _ none => .address
  | .load _ (some _) => .none
  | .store _ none => .address
  | .store _ (some _) => .none
  | .jmp => .address
  | .jcc _ => .address
  | .call => .address
  | .ret => .none
  | .nop => .none
  | .hlt => .none

/-- The encoded length in bytes of an instruction with this descriptor (30 R52). -/
def Desc.length (d : Desc) : Nat :=
  match d.mode with
  | .none => 1
  | .immediate => 2
  | .address => 2

/-- The default contents of `DECODE_ROM` (30 R58): the 50 bound entries; every other byte is
unbound. -/
def defaultRom : Rom := fun op =>
  match op with
  | 0x02#8 => some ⟨"ADD B", .alu .none .add false true .A (some .B)⟩
  | 0x03#8 => some ⟨"ADD C", .alu .none .add false true .A (some .C)⟩
  | 0x04#8 => some ⟨"SUB B", .alu .none .sub true true .A (some .B)⟩
  | 0x05#8 => some ⟨"SUB C", .alu .none .sub true true .A (some .C)⟩
  | 0x06#8 => some ⟨"SBB B", .alu .none .sub false true .A (some .B)⟩
  | 0x07#8 => some ⟨"SBB C", .alu .none .sub false true .A (some .C)⟩
  | 0x08#8 => some ⟨"ANA B", .alu .none .and false true .A (some .B)⟩
  | 0x09#8 => some ⟨"ANA C", .alu .none .and false true .A (some .C)⟩
  | 0x0A#8 => some ⟨"ORA B", .alu .none .or false true .A (some .B)⟩
  | 0x0B#8 => some ⟨"ORA C", .alu .none .or false true .A (some .C)⟩
  | 0x0C#8 => some ⟨"XRA B", .alu .none .xor false true .A (some .B)⟩
  | 0x0D#8 => some ⟨"XRA C", .alu .none .xor false true .A (some .C)⟩
  | 0x0E#8 => some ⟨"CMP B", .alu .none .sub true false .A (some .B)⟩
  | 0x0F#8 => some ⟨"CMP C", .alu .none .sub true false .A (some .C)⟩
  | 0x10#8 => some ⟨"INR A", .alu .none .add false true .A none⟩
  | 0x11#8 => some ⟨"INR B", .alu .none .add false true .B none⟩
  | 0x12#8 => some ⟨"INR C", .alu .none .add false true .C none⟩
  | 0x13#8 => some ⟨"DCR A", .alu .none .sub true true .A none⟩
  | 0x14#8 => some ⟨"DCR B", .alu .none .sub true true .B none⟩
  | 0x15#8 => some ⟨"DCR C", .alu .none .sub true true .C none⟩
  | 0x16#8 => some ⟨"CMA", .alu .none .not false true .A none⟩
  | 0x17#8 => some ⟨"ADI", .alu .immediate .add false true .A none⟩
  | 0x18#8 => some ⟨"SUI", .alu .immediate .sub true true .A none⟩
  | 0x19#8 => some ⟨"CPI", .alu .immediate .sub true false .A none⟩
  | 0x1A#8 => some ⟨"MOV A,B", .mov .A .B⟩
  | 0x1B#8 => some ⟨"MOV A,C", .mov .A .C⟩
  | 0x1C#8 => some ⟨"MOV B,A", .mov .B .A⟩
  | 0x1D#8 => some ⟨"MOV B,C", .mov .B .C⟩
  | 0x1E#8 => some ⟨"MOV C,A", .mov .C .A⟩
  | 0x1F#8 => some ⟨"MOV C,B", .mov .C .B⟩
  | 0x20#8 => some ⟨"MVI A", .mvi .A⟩
  | 0x21#8 => some ⟨"MVI B", .mvi .B⟩
  | 0x22#8 => some ⟨"MVI C", .mvi .C⟩
  | 0x23#8 => some ⟨"LDA", .load .A none⟩
  | 0x24#8 => some ⟨"LDB", .load .B none⟩
  | 0x25#8 => some ⟨"LDC", .load .C none⟩
  | 0x26#8 => some ⟨"STA", .store .A none⟩
  | 0x27#8 => some ⟨"STB", .store .B none⟩
  | 0x28#8 => some ⟨"STC", .store .C none⟩
  | 0x29#8 => some ⟨"LDA C", .load .A (some .C)⟩
  | 0x2A#8 => some ⟨"STA C", .store .A (some .C)⟩
  | 0x2B#8 => some ⟨"JMP", .jmp⟩
  | 0x2C#8 => some ⟨"JS", .jcc .S⟩
  | 0x2D#8 => some ⟨"JZ", .jcc .Z⟩
  | 0x2E#8 => some ⟨"JC", .jcc .C⟩
  | 0x2F#8 => some ⟨"JV", .jcc .V⟩
  | 0x30#8 => some ⟨"CALL", .call⟩
  | 0x31#8 => some ⟨"RET", .ret⟩
  | 0x3E#8 => some ⟨"NOP", .nop⟩
  | 0x3F#8 => some ⟨"HLT", .hlt⟩
  | _ => none

/-- The mnemonic of an opcode byte, for diagnostics (30 R54). -/
def mnemonicOf (rom : Rom) (op : Byte) : Option String := (rom op).map RomEntry.mnemonic

/-- Coding of the field `mode`, bits 14:13 (30 R55). -/
def Mode.code : Mode → BitVec 2
  | .none => 0b00#2
  | .immediate => 0b01#2
  | .address => 0b10#2

/-- Coding of the field `fn` of class ALU, bits 8:6 (30 R55). -/
def AluFn.code : AluFn → BitVec 3
  | .add => 0#3
  | .sub => 1#3
  | .and => 2#3
  | .or => 3#3
  | .xor => 4#3
  | .not => 5#3

/-- Coding of the field `fn` of class JCC, bits 8:6 (30 R55). -/
def Flag.code : Flag → BitVec 3
  | .S => 0#3
  | .Z => 1#3
  | .C => 2#3
  | .V => 3#3

/-- Coding of a register index (10 R10, 30 R55). -/
def Reg.code : Reg → BitVec 2
  | .A => 0#2
  | .B => 1#2
  | .C => 2#2

/-- Coding of the field `rb`, where 3 means "not a register" (30 R55). -/
def regCodeOrNone : Option Reg → BitVec 2
  | some r => r.code
  | none => 3#2

/-- A control word from its fields, `valid` first (30 R55). -/
def ctrlFields (valid : BitVec 1) (mode : BitVec 2) (cls : BitVec 4) (fn : BitVec 3)
    (cin wb : Bool) (ra rb : BitVec 2) : CtrlWord :=
  valid ++ mode ++ cls ++ fn ++ BitVec.ofBool cin ++ BitVec.ofBool wb ++ ra ++ rb

/-- The stored control word of a descriptor (30 R55; which of `ra` and `rb` are stored as 0 or 3 is
said before the table of 30 R58). -/
def Desc.ctrl (d : Desc) : CtrlWord :=
  match d with
  | .alu m fn cin wb ra rb => ctrlFields 1#1 m.code 0#4 fn.code cin wb ra.code (regCodeOrNone rb)
  | .mov ra rb => ctrlFields 1#1 d.mode.code 1#4 0#3 false false ra.code rb.code
  | .mvi ra => ctrlFields 1#1 d.mode.code 2#4 0#3 false false ra.code 3#2
  | .load ra rb => ctrlFields 1#1 d.mode.code 3#4 0#3 false false ra.code (regCodeOrNone rb)
  | .store ra rb => ctrlFields 1#1 d.mode.code 4#4 0#3 false false ra.code (regCodeOrNone rb)
  | .jmp => ctrlFields 1#1 d.mode.code 5#4 0#3 false false 0#2 0#2
  | .jcc f => ctrlFields 1#1 d.mode.code 6#4 f.code false false 0#2 0#2
  | .call => ctrlFields 1#1 d.mode.code 7#4 0#3 false false 0#2 0#2
  | .ret => ctrlFields 1#1 d.mode.code 8#4 0#3 false false 0#2 0#2
  | .nop => ctrlFields 1#1 d.mode.code 9#4 0#3 false false 0#2 0#2
  | .hlt => ctrlFields 1#1 d.mode.code 10#4 0#3 false false 0#2 0#2

/-- The stored control word of a ROM entry; an unbound entry is the all-zero word (30 R55). -/
def entryCtrl : Option RomEntry → CtrlWord
  | some e => e.desc.ctrl
  | none => 0x0000#16

/-- The register that a two-bit field names; 3 names none (10 R10). -/
def regOfCode (c : BitVec 2) : Option Reg :=
  match c with
  | 0#2 => some .A
  | 1#2 => some .B
  | 2#2 => some .C
  | _ => none

/-- The operand mode that a two-bit field names; 0b11 is not used (30 R55). -/
def modeOfCode (c : BitVec 2) : Option Mode :=
  match c with
  | 0b00#2 => some .none
  | 0b01#2 => some .immediate
  | 0b10#2 => some .address
  | _ => none

/-- The ALU function that a three-bit field names; 6 and 7 are not used (30 R55). -/
def aluFnOfCode (c : BitVec 3) : Option AluFn :=
  match c with
  | 0#3 => some .add
  | 1#3 => some .sub
  | 2#3 => some .and
  | 3#3 => some .or
  | 4#3 => some .xor
  | 5#3 => some .not
  | _ => none

/-- The flag that the field `fn` of class JCC names (30 R55). -/
def flagOfCode (c : BitVec 3) : Option Flag :=
  match c with
  | 0#3 => some .S
  | 1#3 => some .Z
  | 2#3 => some .C
  | 3#3 => some .V
  | _ => none

/-- The descriptor that the fields of a control word with `valid` = 1 name, before the check that
the unused fields hold what 30 R55 stores there. -/
def descOfFields (w : CtrlWord) : Option Desc :=
  let ra := regOfCode (w.extractLsb' 2 2)
  let rb := regOfCode (w.extractLsb' 0 2)
  let fn := w.extractLsb' 6 3
  match w.extractLsb' 9 4 with
  | 0#4 => do
    let m ← modeOfCode (w.extractLsb' 13 2)
    let f ← aluFnOfCode fn
    let r ← ra
    pure (.alu m f (w.getLsbD 5) (w.getLsbD 4) r rb)
  | 1#4 => do
    let d ← ra
    let s ← rb
    pure (.mov d s)
  | 2#4 => ra.map .mvi
  | 3#4 => ra.map fun r => .load r rb
  | 4#4 => ra.map fun r => .store r rb
  | 5#4 => some .jmp
  | 6#4 => (flagOfCode fn).map .jcc
  | 7#4 => some .call
  | 8#4 => some .ret
  | 9#4 => some .nop
  | 10#4 => some .hlt
  | _ => none

/-- What a stored control word stands for: `some none` for the unbound word 0x0000, `some (some d)`
for a descriptor, and `none` for a word that holds an unused coding, which is refused (93 U4). -/
def ctrlDecode (w : CtrlWord) : Option (Option Desc) :=
  if w = 0x0000#16 then some none
  else
    match descOfFields w with
    | some d => if d.ctrl = w then some (some d) else none
    | none => none

/-- The printed ROM initializer of 30 R58, index = opcode byte; words 0x40 to 0xFF are 0x0000. -/
def romInitializer : List CtrlWord :=
  [0x0000#16, 0x0000#16, 0x8011#16, 0x8012#16, 0x8071#16, 0x8072#16, 0x8051#16, 0x8052#16] ++
  [0x8091#16, 0x8092#16, 0x80D1#16, 0x80D2#16, 0x8111#16, 0x8112#16, 0x8061#16, 0x8062#16] ++
  [0x8013#16, 0x8017#16, 0x801B#16, 0x8073#16, 0x8077#16, 0x807B#16, 0x8153#16, 0xA013#16] ++
  [0xA073#16, 0xA063#16, 0x8201#16, 0x8202#16, 0x8204#16, 0x8206#16, 0x8208#16, 0x8209#16] ++
  [0xA403#16, 0xA407#16, 0xA40B#16, 0xC603#16, 0xC607#16, 0xC60B#16, 0xC803#16, 0xC807#16] ++
  [0xC80B#16, 0x8602#16, 0x8802#16, 0xCA00#16, 0xCC00#16, 0xCC40#16, 0xCC80#16, 0xCCC0#16] ++
  [0xCE00#16, 0x9000#16, 0x0000#16, 0x0000#16, 0x0000#16, 0x0000#16, 0x0000#16, 0x0000#16] ++
  [0x0000#16, 0x0000#16, 0x0000#16, 0x0000#16, 0x0000#16, 0x0000#16, 0x9200#16, 0x9400#16] ++
  List.replicate 192 0x0000#16

/-! ### The opcode map (30 R56, R58, R77) -/

/-- The opcode byte of an instruction. -/
def Instr.opcode : Instr → Byte
  | .addB => 0x02#8
  | .addC => 0x03#8
  | .subB => 0x04#8
  | .subC => 0x05#8
  | .sbbB => 0x06#8
  | .sbbC => 0x07#8
  | .anaB => 0x08#8
  | .anaC => 0x09#8
  | .oraB => 0x0A#8
  | .oraC => 0x0B#8
  | .xraB => 0x0C#8
  | .xraC => 0x0D#8
  | .cmpB => 0x0E#8
  | .cmpC => 0x0F#8
  | .inrA => 0x10#8
  | .inrB => 0x11#8
  | .inrC => 0x12#8
  | .dcrA => 0x13#8
  | .dcrB => 0x14#8
  | .dcrC => 0x15#8
  | .cma => 0x16#8
  | .adi _ => 0x17#8
  | .sui _ => 0x18#8
  | .cpi _ => 0x19#8
  | .movAB => 0x1A#8
  | .movAC => 0x1B#8
  | .movBA => 0x1C#8
  | .movBC => 0x1D#8
  | .movCA => 0x1E#8
  | .movCB => 0x1F#8
  | .mviA _ => 0x20#8
  | .mviB _ => 0x21#8
  | .mviC _ => 0x22#8
  | .lda _ => 0x23#8
  | .ldb _ => 0x24#8
  | .ldc _ => 0x25#8
  | .sta _ => 0x26#8
  | .stb _ => 0x27#8
  | .stc _ => 0x28#8
  | .ldaC => 0x29#8
  | .staC => 0x2A#8
  | .jmp _ => 0x2B#8
  | .js _ => 0x2C#8
  | .jz _ => 0x2D#8
  | .jc _ => 0x2E#8
  | .jv _ => 0x2F#8
  | .call _ => 0x30#8
  | .ret => 0x31#8
  | .nop => 0x3E#8
  | .hlt => 0x3F#8

/-- The operand byte of an instruction, if its format has one (30 R51). -/
def Instr.operand : Instr → Option Byte
  | .adi x | .sui x | .cpi x | .mviA x | .mviB x | .mviC x | .lda x | .ldb x | .ldc x | .sta x
  | .stb x | .stc x | .jmp x | .js x | .jz x | .jc x | .jv x | .call x => some x
  | .addB | .addC | .subB | .subC | .sbbB | .sbbC | .anaB | .anaC | .oraB | .oraC | .xraB
  | .xraC | .cmpB | .cmpC | .inrA | .inrB | .inrC | .dcrA | .dcrB | .dcrC | .cma | .movAB
  | .movAC | .movBA | .movBC | .movCA | .movCB | .ldaC | .staC | .ret | .nop | .hlt => none

/-- The encoded length of an instruction in bytes (30 R50). -/
def Instr.length (i : Instr) : Nat :=
  match i.operand with
  | some _ => 2
  | none => 1

/-- Why a byte sequence is no instruction. -/
inductive DecodeError where
  /-- The opcode byte has no bound handler (30 R59). -/
  | invalidOpcode (op : Byte)
  /-- The sequence ends where the operand byte should stand. -/
  | missingOperand (op : Byte)
  /-- The sequence is empty. -/
  | noBytes
  deriving DecidableEq, Repr

/-- The instruction that an opcode byte selects, with `opnd` as its operand byte where its format has
one (30 R51 to R53). The second byte never takes part in the selection (30 R52). -/
def decodeOp (op opnd : Byte) : Except DecodeError Instr :=
  match op with
  | 0x02#8 => .ok .addB
  | 0x03#8 => .ok .addC
  | 0x04#8 => .ok .subB
  | 0x05#8 => .ok .subC
  | 0x06#8 => .ok .sbbB
  | 0x07#8 => .ok .sbbC
  | 0x08#8 => .ok .anaB
  | 0x09#8 => .ok .anaC
  | 0x0A#8 => .ok .oraB
  | 0x0B#8 => .ok .oraC
  | 0x0C#8 => .ok .xraB
  | 0x0D#8 => .ok .xraC
  | 0x0E#8 => .ok .cmpB
  | 0x0F#8 => .ok .cmpC
  | 0x10#8 => .ok .inrA
  | 0x11#8 => .ok .inrB
  | 0x12#8 => .ok .inrC
  | 0x13#8 => .ok .dcrA
  | 0x14#8 => .ok .dcrB
  | 0x15#8 => .ok .dcrC
  | 0x16#8 => .ok .cma
  | 0x17#8 => .ok (.adi opnd)
  | 0x18#8 => .ok (.sui opnd)
  | 0x19#8 => .ok (.cpi opnd)
  | 0x1A#8 => .ok .movAB
  | 0x1B#8 => .ok .movAC
  | 0x1C#8 => .ok .movBA
  | 0x1D#8 => .ok .movBC
  | 0x1E#8 => .ok .movCA
  | 0x1F#8 => .ok .movCB
  | 0x20#8 => .ok (.mviA opnd)
  | 0x21#8 => .ok (.mviB opnd)
  | 0x22#8 => .ok (.mviC opnd)
  | 0x23#8 => .ok (.lda opnd)
  | 0x24#8 => .ok (.ldb opnd)
  | 0x25#8 => .ok (.ldc opnd)
  | 0x26#8 => .ok (.sta opnd)
  | 0x27#8 => .ok (.stb opnd)
  | 0x28#8 => .ok (.stc opnd)
  | 0x29#8 => .ok .ldaC
  | 0x2A#8 => .ok .staC
  | 0x2B#8 => .ok (.jmp opnd)
  | 0x2C#8 => .ok (.js opnd)
  | 0x2D#8 => .ok (.jz opnd)
  | 0x2E#8 => .ok (.jc opnd)
  | 0x2F#8 => .ok (.jv opnd)
  | 0x30#8 => .ok (.call opnd)
  | 0x31#8 => .ok .ret
  | 0x3E#8 => .ok .nop
  | 0x3F#8 => .ok .hlt
  | _ => .error (.invalidOpcode op)

/-- The decoder over any byte sequence: the first instruction and the bytes after it, or the reason
for the rejection. -/
def decode : List Byte → Except DecodeError (Instr × List Byte)
  | [] => .error .noBytes
  | op :: rest =>
    match decodeOp op (rest.headD 0x00#8) with
    | .error e => .error e
    | .ok i =>
      match i.operand with
      | none => .ok (i, rest)
      | some _ =>
        match rest with
        | [] => .error (.missingOperand op)
        | _ :: rest' => .ok (i, rest')

/-- The bytes of an instruction: the opcode byte and, when its format has one, the operand byte after
it (30 R51, R76). -/
def encode (i : Instr) : List Byte := i.opcode :: i.operand.toList

/-! ### Table words -/

/-- The two bytes, opcode byte first, of an instruction whose bits are `w`, bit 0 of `w` being bit 0 of
the opcode byte and bit 8 being bit 0 of the operand byte; bits from `nbits` on are zero. -/
def tableWordBytes (nbits w : Nat) : Byte × Byte :=
  (BitVec.ofNat 8 (w % 2 ^ nbits), BitVec.ofNat 8 (w % 2 ^ nbits / 256))

/-- The instruction that the decoder reads from a word of the opcode table. -/
def decodeTableWord (nbits w : Nat) : Option Instr :=
  let b := tableWordBytes nbits w
  match decode [b.1, b.2] with
  | .ok (i, _) => some i
  | .error _ => none

end Sys2Proof
end

