-- ==== Sys2Proof/Machine/Fetch.lean ====
section
/-! DEFINITION. Fetching and decoding the instruction at `IP` (30_encoding.md R61, R63). -/

namespace Sys2Proof.Machine

/-- The opcode byte that a step fetches, `MemRead(IP[7:0], 1)` (30 R61). -/
def fetchOpcode (s : State) : Byte := s.memRead s.ipByte

/-- The byte after the opcode, where it lies in memory; where the opcode is at 0xFF there is no such
cell, and the byte is 0x00 and "not used" (30 R63; log 12). -/
def fetchNextByte (s : State) : Byte :=
  if (s.advance 1).outOfMemory then 0x00#8 else s.memRead (s.advance 1).ipByte

/-- The bytes at the pointer that the decoder is given: the longest instruction has two (30 R50). -/
def fetchBytes (s : State) : List Byte := [fetchOpcode s, fetchNextByte s]

/-- The instruction at the pointer, or why there is none. -/
def fetchInstr (s : State) : Except DecodeError Instr := (decode (fetchBytes s)).map Prod.fst

/-- What a step does with an unbound opcode byte (60 R160): the pointer has been advanced past the byte,
the fault is latched, nothing else changes. -/
def takeInvalidOpcode (s : State) : State := (s.advance 1).raise .invalidOpcode

/-- The pointer of a state in which two bytes can be fetched: the one it has, or 0 where the
instruction's second byte would lie outside memory. -/
def placeIp (s : State) : Ptr := if s.ip.toNat ≤ 254 then s.ip else 0x000#9

/-- `s` with two bytes stored where a step fetches, and with what would keep the step from fetching them
(a latch, a pointer at the end of memory) removed (log 15). -/
def placeBytes (s : State) (b0 b1 : Byte) : State :=
  let t : State := { s with ip := placeIp s, halted := false, fault := none }
  (t.memWrite t.ipByte b0).memWrite (t.advance 1).ipByte b1

end Sys2Proof.Machine
end

