-- ==== Sys2Proof/Machine/Report.lean ====
section
/-! DEFINITION. The result of a step as the host sees it (60_exceptions.md R160 to R166, R172;
92_eei_decisions.md D22). It is an output and no state. -/

namespace Sys2Proof.Machine

/-- The result type of the step (60 R172). -/
inductive StepResult where
  | continuing
  | halted
  | addressExhausted
  | fault (f : Fault)
  deriving DecidableEq, Repr

/-- The diagnostics of a step that raises a fault (60 R160, R161): the opcode byte and its address. -/
structure FaultInfo where
  opcode : Byte
  address : Ptr
  deriving DecidableEq, Repr

/-- What a step returns to the host: its result and, from the step that raises a fault, the
diagnostics. -/
structure StepReport where
  result : StepResult
  info : Option FaultInfo
  deriving DecidableEq, Repr

/-- The result that a state calls for, tested in the order of 60 R166: a latched fault, a halt, a
pointer out of memory (decision D15). Both the tests at the top of a step and the tests at its end
(30 R61) are this one function. -/
def status (s : State) : StepResult :=
  match s.fault with
  | some f => .fault f
  | none => if s.halted then .halted else if s.outOfMemory then .addressExhausted else .continuing

/-- The report of a step from `s` to `t`. A step that finds the latch already set reports the fault
without diagnostics (log 16). -/
def reportOf (s t : State) : StepReport where
  result := status t
  info := if s.fault.isNone && t.fault.isSome then some ⟨fetchOpcode s, s.ip⟩ else none

/-- The 2-bit coding of the `fault` latch in a hardware build (60 R162). -/
def faultCode : Option Fault → BitVec 2
  | none => 0b00#2
  | some .invalidOpcode => 0b01#2
  | some .operandFetch => 0b10#2

end Sys2Proof.Machine
end

