-- ==== Sys2Proof/Machine/Step.lean ====
section
/-! DEFINITION. One step of the execution engine (30_encoding.md R61). -/

namespace Sys2Proof.Machine

/-- One fetch-decode-execute cycle (30 R61), with the default decode ROM. In a terminal state nothing
is fetched and nothing changes; an unbound byte takes the fault InvalidOpcode; else the instruction at
the pointer is executed. The result that the step returns to the host is `reportOf`. -/
def step (s : State) : Host.Outcome State Fault Refusal :=
  if s.terminal then .next s
  else
    match fetchInstr s with
    | .error _ => .next (takeInvalidOpcode s)
    | .ok i => exec i s

/-- `s` with the instruction whose bits are `w` stored where `step` fetches (log 15). -/
def State.withFetchWord (s : State) (nbits w : Nat) : State :=
  placeBytes s (tableWordBytes nbits w).1 (tableWordBytes nbits w).2

end Sys2Proof.Machine
end

