-- ==== Sys2Proof/Machine/HostOps.lean ====
section
/-! DEFINITION. The operations of the host between two steps (60_exceptions.md R172 to R174,
70_reset_and_hazards.md R184, 30_encoding.md R62). Reset is `State.reset` (70 R180). -/

namespace Sys2Proof.Machine

/-- The one error of a load (20 R38, 60 R163). -/
inductive LoadError where
  /-- The program is longer than the memory. -/
  | programTooLarge
  deriving DecidableEq, Repr

/-- Writes the bytes of a program into the cells from address `k` on, one by one (70 R184). -/
def writeBytes : Nat → List Byte → State → State
  | _, [], s => s
  | k, v :: rest, s => writeBytes (k + 1) rest (s.memWrite (BitVec.ofNat 8 k) v)

/-- `Load(p)` (70 R184): the program goes to the cells from 0x00 on and nothing else changes; a program
longer than 256 bytes fails, and then there is no state to run (20 R38). -/
def loadProgram (p : List Byte) (s : State) : Except LoadError State :=
  if programFits p then .ok (writeBytes Config.loadBase p s) else .error .programTooLarge

/-- The host's way to a first step (70 R185 (b)): reset, then load. -/
def boot (p : List Byte) : Except LoadError State := loadProgram p State.reset

/-- A host write of a memory cell between two steps (60 R174): an ordinary memory write. -/
def hostWrite (addr v : Byte) (s : State) : State := s.memWrite addr v

/-- `Run()` (30 R62), for at most `k` steps: the state and the result of the first step whose result is
not Continuing, or `none` where `k` steps all return Continuing. A run may never end (70 R195). -/
def run : Nat → State → Option (State × StepResult)
  | 0, _ => none
  | k + 1, s =>
    match step s with
    | .next t =>
      match status t with
      | .continuing => run k t
      | .halted => some (t, .halted)
      | .addressExhausted => some (t, .addressExhausted)
      | .fault f => some (t, .fault f)
    | .fault _ => none
    | .refused _ => none

end Sys2Proof.Machine
end

