-- ==== Sys2Proof/Machine/RomEngine.lean ====
section
/-! DEFINITION. The step over ANY decode ROM, as the pseudocode of 30_encoding.md R61 to R64 writes it.
`DECODE_ROM` is an open parameter of the hardware (30 R57, 92_eei_decisions.md D25); `step` is this
machine at the default ROM (Obligations.StepRefinesRomEngine). -/

namespace Sys2Proof.Machine

/-- A conditional jump whose flag is 0 steps over its operand byte without reading it (30 R63). -/
def skipsOperand (d : Desc) (s : State) : Bool :=
  match d with
  | .jcc f => !s.readFlag f
  | _ => false

/-- `FetchOperand(d)` (30 R63), on the state after the opcode fetch: the operand byte and the state after
the fetch, or the state in which the fault OperandFetch has been taken. -/
def fetchOperand (d : Desc) (s : State) : Except State (Byte × State) :=
  match d.mode with
  | .none => .ok (0x00#8, s)
  | _ =>
    if skipsOperand d s then .ok (0x00#8, s.advance 1)
    else if s.outOfMemory then .error (s.raise .operandFetch)
    else .ok (s.memRead s.ipByte, s.advance 1)

/-- `Execute(d, opnd)` (30 R64). -/
def executeDesc (d : Desc) (opnd : Byte) (s : State) : State :=
  match d with
  | .alu mode fn cin wb ra rb => aluAction fn cin wb ra (aluOperand2 s mode rb opnd) s
  | .mov ra rb => movAction ra rb s
  | .mvi ra => mviAction ra opnd s
  | .load ra rb => loadAction ra (effectiveAddr s rb opnd) s
  | .store ra rb => storeAction ra (effectiveAddr s rb opnd) s
  | .jmp => jumpAction opnd s
  | .jcc f => if s.readFlag f then jumpAction opnd s else s
  | .call => callAction opnd s
  | .ret => retAction s
  | .nop => nopAction s
  | .hlt => hltAction s

/-- `Step()` (30 R61) over the decode ROM `rom`: the next state and what the step returns. -/
def stepWith (rom : Rom) (s : State) : State × StepReport :=
  if s.terminal then (s, ⟨status s, none⟩)
  else
    let op := fetchOpcode s
    let s1 := s.advance 1
    match rom op with
    | none => (s1.raise .invalidOpcode, ⟨.fault .invalidOpcode, some ⟨op, s.ip⟩⟩)
    | some e =>
      match fetchOperand e.desc s1 with
      | .error s2 => (s2, ⟨.fault .operandFetch, some ⟨op, s.ip⟩⟩)
      | .ok (opnd, s2) =>
        let s3 := executeDesc e.desc opnd s2
        (s3, ⟨status s3, none⟩)

/-! ### The memory accesses of a step (20 R31, R40; 70 R194) -/

/-- One access to one memory cell. -/
inductive Access where
  | read (addr : Byte)
  | write (addr value : Byte)
  deriving DecidableEq, Repr

/-- The operand read of a step, on the state after the opcode fetch (20 R31). -/
def operandAccess (d : Desc) (s : State) : List Access :=
  match d.mode with
  | .none => []
  | _ => if skipsOperand d s || s.outOfMemory then [] else [.read s.ipByte]

/-- The data access of an action, on the state after the operand fetch (20 R31). -/
def dataAccess (d : Desc) (opnd : Byte) (s : State) : List Access :=
  match d with
  | .load _ rb => [.read (effectiveAddr s rb opnd)]
  | .store ra rb => [.write (effectiveAddr s rb opnd) (s.readReg ra)]
  | .call => [.write Config.retSlot s.ipByte]
  | .ret => [.read Config.retSlot]
  | .alu .. | .mov .. | .mvi _ | .jmp | .jcc _ | .nop | .hlt => []

/-- The memory accesses of a step in their order (20 R40 (a)): the opcode read, at most one operand
read, at most one data access; none in a terminal state. -/
def stepAccesses (rom : Rom) (s : State) : List Access :=
  if s.terminal then []
  else
    let s1 := s.advance 1
    .read s.ipByte ::
      match rom (fetchOpcode s) with
      | none => []
      | some e =>
        operandAccess e.desc s1 ++
          match fetchOperand e.desc s1 with
          | .error _ => []
          | .ok (opnd, s2) => dataAccess e.desc opnd s2

/-- The writes of a list of accesses, applied in order to a state's memory. -/
def applyAccesses : List Access → State → State
  | [], s => s
  | .read _ :: rest, s => applyAccesses rest s
  | .write a v :: rest, s => applyAccesses rest (s.memWrite a v)

end Sys2Proof.Machine
end

