-- ==== Sys2Proof/Safety.lean ====
section
/-! DEFINITION. What counts as a safe run, and the other terms that claims about the machine use. -/

namespace Sys2Proof.Machine

/-- The step fetches in this state: no fault is latched, the machine is not halted and the pointer is
within memory bounds (30 R61). -/
def Running (s : State) : Prop := s.fault = none ∧ s.halted = false ∧ s.ip.toNat ≤ 255

/-- What holds in every state that the machine and its host can reach: the memory has its canonical
form; `IP` is 0 to 257 (10 R13); a latched fault and `halted` exclude each other; after InvalidOpcode
`IP` is one past the offending byte (60 R160), after OperandFetch it is 0x100 (60 R161), and after a halt
it is one past the HLT byte (45 R156). -/
structure Inv (s : State) : Prop where
  memWf : s.mem.wf = true
  ipLe : s.ip.toNat ≤ 257
  invalidOpcode : s.fault = some .invalidOpcode →
    s.halted = false ∧ 1 ≤ s.ip.toNat ∧ s.ip.toNat ≤ 256
  operandFetch : s.fault = some .operandFetch → s.halted = false ∧ s.ip.toNat = 256
  halted : s.halted = true → 1 ≤ s.ip.toNat ∧ s.ip.toNat ≤ 256

/-- The states that the operations of 10 R27 can make: reset, load, host write and step. -/
inductive Reachable : State → Prop where
  | reset : Reachable State.reset
  | load (p : List Byte) (s t : State) : Reachable s → loadProgram p s = .ok t → Reachable t
  | hostWrite (addr v : Byte) (s : State) : Reachable s → Reachable (hostWrite addr v s)
  | step (s t : State) : Reachable s → step s = .next t → Reachable t

/-- A safe state: no fault is latched. A safe run is one whose states are all safe; it ends, if it ends,
with Halted or AddressExhausted (60 R164). -/
def Safe (s : State) : Prop := s.fault = none

/-- The opcode byte at the pointer lies in the range `lo` to `hi`, both included. -/
def OpcodeIn (s : State) (lo hi : Nat) : Prop :=
  lo ≤ (fetchOpcode s).toNat ∧ (fetchOpcode s).toNat ≤ hi

/-- The opcode byte at the pointer is unbound in the default table (30 R59). -/
def UnboundAt (s : State) : Prop := OpcodeIn s 0x00 0x01 ∨ OpcodeIn s 0x32 0x3D ∨ OpcodeIn s 0x40 0xFF

/-- The flag that the conditional jump at the pointer tests, for the opcodes 0x2C to 0x2F in their order
(30 R58). -/
def testedFlag (s : State) : Bool :=
  if fetchOpcode s = 0x2C#8 then s.flags.s
  else if fetchOpcode s = 0x2D#8 then s.flags.z
  else if fetchOpcode s = 0x2E#8 then s.flags.c
  else s.flags.v

/-- The registers not in `ws` are unchanged. -/
def SameRegsBut (ws : List Reg) (s t : State) : Prop := ∀ r, r ∉ ws → t.readReg r = s.readReg r

/-- Every byte of memory reads as before. -/
def SameMem (s t : State) : Prop := ∀ addr, t.memRead addr = s.memRead addr

/-- Every byte of memory but the one at `x` reads as before. -/
def SameMemBut (x : Byte) (s t : State) : Prop := ∀ addr, addr ≠ x → t.memRead addr = s.memRead addr

/-- Both latches are unchanged. -/
def SameLatches (s t : State) : Prop := t.halted = s.halted ∧ t.fault = s.fault

/-- The four flag values of an ALU result (10 R17), with the conditions of carry and overflow given. -/
def FlagsAre (f : Flags) (res : Byte) (carry overflow : Prop) : Prop :=
  (f.z = true ↔ res.toNat = 0) ∧ (f.s = true ↔ 128 ≤ res.toNat) ∧ (f.c = true ↔ carry) ∧
  (f.v = true ↔ overflow)

/-- A signed value does not fit in 8 bits (40 R86). -/
def OutsideSigned (x : Int) : Prop := x < -128 ∨ 127 < x

/-- The whole effect of an ALU instruction of `len` bytes (40 R85): register `dst`, if there is one, gets
`res`, every other register is unchanged, all four flags are written, `IP` advances by `len`, and
memory and latches are unchanged. -/
def AluEffect (s t : State) (len : Nat) (dst : Option Reg) (res : Byte) (carry overflow : Prop) : Prop :=
  (∀ r, t.readReg r = if dst = some r then res else s.readReg r) ∧
  FlagsAre t.flags res carry overflow ∧
  t.ip = s.ip + BitVec.ofNat 9 len ∧ SameMem s t ∧ SameLatches s t

/-- Fault entry (60 R160, R161, R167): the latch holds `f`, `IP` is one past the opcode byte, and
registers, flags, memory and `halted` are unchanged. -/
def FaultEntry (s t : State) (f : Fault) : Prop :=
  t.fault = some f ∧ t.ip = s.ip + 1#9 ∧ SameRegsBut [] s t ∧ t.flags = s.flags ∧ SameMem s t ∧
  t.halted = s.halted

end Sys2Proof.Machine
end

