-- ==== Sys2Proof/Certificates/Slice0/Obligations.lean ====
section
/-! DEFINITION. The statements about the model, for the provers. Where a docstring names a decision
D<n> or a log entry, the clause rests on the spec's own decision (92_eei_decisions.md) or on the model's
choice, and not on a sentence of the source. -/

open Sys2Proof Sys2Proof.Machine

/-! A statement that reads a cell back after a write has the premise `s.mem.wf = true`, the canonical form
of the memory list, which holds at reset (`InvariantAtReset`) and which every step keeps
(`StepKeepsInvariant`). -/

/-! ### Encoding and decoding -/

/-- Decoding the bytes of an instruction gives that instruction back, whatever bytes follow, for every
instruction and every operand byte (30 R51 to R53; bytes by decisions D1 to D5). -/
def Obligations.DecodeInvertsEncode : Prop :=
  ∀ (i : Instr) (rest : List Byte), i.wf = true → decode (encode i ++ rest) = .ok (i, rest)

/-- Whatever the decoder accepts is, byte for byte, the encoding of what it answers: no two byte
sequences stand for one instruction (30 R60). -/
def Obligations.EncodeInvertsDecode : Prop :=
  ∀ (bytes rest : List Byte) (i : Instr), decode bytes = .ok (i, rest) → encode i ++ rest = bytes

/-- 30 R56: the ranges of the opcode map by category, in the decode ROM and in the decoder, the unbound
bytes, and the five bytes that the source states. -/
def Obligations.OpcodeMapRanges : Prop :=
  (∀ op opnd : Byte,
    (2 ≤ op.toNat ∧ op.toNat ≤ 0x31 ∨ op = 0x3E#8 ∨ op = 0x3F#8 →
      ∃ i e, decodeOp op opnd = .ok i ∧ i.opcode = op ∧ defaultRom op = some e ∧
        (e.desc.isAlu = true ↔ 0x02 ≤ op.toNat ∧ op.toNat ≤ 0x19) ∧
        (e.desc.isMove = true ↔ 0x1A ≤ op.toNat ∧ op.toNat ≤ 0x22) ∧
        (e.desc.isMemory = true ↔ 0x23 ≤ op.toNat ∧ op.toNat ≤ 0x2A) ∧
        (e.desc.isJump = true ↔ 0x2B ≤ op.toNat ∧ op.toNat ≤ 0x2F) ∧
        (e.desc = .call ∨ e.desc = .ret ↔ op = 0x30#8 ∨ op = 0x31#8) ∧
        (e.desc = .nop ↔ op = 0x3E#8) ∧ (e.desc = .hlt ↔ op = 0x3F#8)) ∧
    (op.toNat ≤ 1 ∨ 0x32 ≤ op.toNat ∧ op.toNat ≤ 0x3D ∨ 0x40 ≤ op.toNat →
      decodeOp op opnd = .error (.invalidOpcode op) ∧ defaultRom op = none)) ∧
  ∀ n : Byte, decodeOp 0x02#8 n = .ok .addB ∧ decodeOp 0x20#8 n = .ok (.mviA n) ∧
    decodeOp 0x21#8 n = .ok (.mviB n) ∧ decodeOp 0x3F#8 n = .ok .hlt ∧ decodeOp 0x3E#8 n = .ok .nop

/-- 30 R52: the length of an instruction is known from the opcode byte alone, through the decode ROM: 1
when the entry's mode is None, 2 when it is Immediate or Address; and the second byte, whatever its
value, does not change which opcode is decoded. -/
def Obligations.LengthFromOpcodeByte : Prop :=
  ∀ (op x : Byte) (rest rest' : List Byte) (i : Instr),
    decode (op :: x :: rest) = .ok (i, rest') →
      ∃ e, defaultRom op = some e ∧ i.opcode = op ∧ i.length = (encode i).length ∧
        (i.length = 1 ↔ e.desc.mode = .none) ∧
        (i.length = 2 ↔ e.desc.mode = .immediate ∨ e.desc.mode = .address) ∧
        rest' = (x :: rest).drop (i.length - 1) ∧
        ∀ y, ∃ j r, decode (op :: y :: rest) = .ok (j, r) ∧ j.opcode = op ∧ j.length = i.length

/-- The printed ROM initializer is the default table in its stored form, word for word (30 R58;
decisions D1 to D5 and D17). -/
def Obligations.RomInitializerIsDefaultRom : Prop :=
  romInitializer.length = 256 ∧
  ∀ op : Byte, romInitializer[op.toNat]? = some (entryCtrl (defaultRom op))

/-- The 16-bit control word stands for exactly one descriptor, and a word that holds an unused coding is
refused (30 R55, decision D17; 93 U4). -/
def Obligations.ControlWordRoundTrip : Prop :=
  (∀ d : Desc, ctrlDecode d.ctrl = some (some d)) ∧
  (∀ (w : CtrlWord) (d : Desc), ctrlDecode w = some (some d) → d.ctrl = w) ∧
  ∀ w : CtrlWord, w ≠ 0x0000#16 →
    (w.getLsbD 15 = false ∨ w.extractLsb' 13 2 = 0b11#2 ∨ 11 ≤ (w.extractLsb' 9 4).toNat) →
    ctrlDecode w = none

/-- The five encodings that the source states, decoded from their bytes (95 S8). -/
def Obligations.SourceEncodingsDecode : Prop :=
  decode [0x02#8] = .ok (.addB, []) ∧ decode [0x3E#8] = .ok (.nop, []) ∧
  decode [0x3F#8] = .ok (.hlt, []) ∧
  ∀ n : Byte, decode [0x20#8, n] = .ok (.mviA n, []) ∧ decode [0x21#8, n] = .ok (.mviB n, [])

/-! ### The step -/

/-- In a running state whose bytes at the pointer decode to an instruction, the step is `exec` of that
instruction at that state; the step adds nothing around it (30 R61; the form is log 11). -/
def Obligations.StepRunsDecodedInstruction : Prop :=
  ∀ (s : State) (i : Instr) (rest : List Byte), Running s → i.wf = true →
    decode (fetchBytes s) = .ok (i, rest) → step s = exec i s

/-- An instruction whose bytes stand in memory from the pointer on is what the step executes, at every
address where it fits (20 R32, 30 R61). -/
def Obligations.StepRunsEncodedInstruction : Prop :=
  ∀ (s : State) (i : Instr), Running s → s.ip.toNat + i.length ≤ 256 →
    (∀ k v, (encode i)[k]? = some v → s.memRead (s.ipByte + BitVec.ofNat 8 k) = v) →
    step s = exec i s

/-- The model's step is the descriptor machine of the pseudocode of 30 section 5 at the default decode ROM,
in the next state and in what the step returns to the host. The rows are decisions D1 to D5, the fields D17,
OperandFetch and the step over an operand byte D7 and D8, the order of the tests D15, the result type D22.
That the report is computed from the states before and after the step is the model's choice (log 3), and so
is that a step which finds a fault latched reports it without diagnostics (log 16). -/
def Obligations.StepRefinesRomEngine : Prop :=
  ∀ s : State, ∃ t, step s = .next t ∧ stepWith defaultRom s = (t, reportOf s t)

/-- Every decode ROM that `Rom.wf` accepts runs the bytes that the source fixes as the default ROM does:
`ADD B`, `MVI A`, `MVI B`, `NOP`, `HLT` and every unbound byte (30 section 3, constraints (a) and (c);
decision D25). That the type `Rom` holds every admissible table up to what the step can show is the model's
inference (log 10). -/
def Obligations.SourceBytesUnderEveryRom : Prop :=
  ∀ (rom : Rom) (s : State), rom.wf = true → Running s →
    (fetchOpcode s ∈ [0x02#8, 0x20#8, 0x21#8, 0x3E#8, 0x3F#8] ∨ UnboundAt s) →
    stepWith rom s = stepWith defaultRom s

/-- 60 R160: an unbound byte at the pointer raises InvalidOpcode: `IP` is one past the byte, the latch is
set, nothing else changes, and the result carries the byte and its address; no instruction raises it. -/
def Obligations.UnboundByteRaisesInvalidOpcode : Prop :=
  (∀ s : State, Running s → UnboundAt s →
    ∃ t, step s = .next t ∧ FaultEntry s t .invalidOpcode ∧
      reportOf s t = ⟨.fault .invalidOpcode, some ⟨fetchOpcode s, s.ip⟩⟩) ∧
  ∀ (i : Instr) (s t : State), exec i s = .next t →
    t.fault = some .invalidOpcode → s.fault = some .invalidOpcode

/-- A step in a terminal state changes nothing, however often it is repeated, so its result is the same
each time (30 section 5; decision D15). That such a step answers NEXT is the model's choice (log 2); that it
reports a latched fault without diagnostics is the model's choice too, where the spec is silent (log 16). -/
def Obligations.TerminalStatesAreStable : Prop :=
  ∀ (n : Nat) (s : State), s.terminal = true →
    Sys2Proof.core.run n s = .next s ∧ (stepWith defaultRom s).2 = ⟨status s, none⟩ ∧
      status s ≠ .continuing

/-- 10 R20: `halted` is set by the HLT instruction and by nothing else, no instruction, load or host write
clears it, while it is 1 nothing is fetched, and it is 0 after reset. -/
def Obligations.HaltedLatch : Prop :=
  (∀ s t : State, step s = .next t → s.halted = false →
    (t.halted = true ↔ Running s ∧ fetchOpcode s = 0x3F#8)) ∧
  (∀ (i : Instr) (s t : State), exec i s = .next t → s.halted = true → t.halted = true) ∧
  (∀ (p : List Byte) (s t : State), loadProgram p s = .ok t → t.halted = s.halted) ∧
  (∀ (x v : Byte) (s : State), (hostWrite x v s).halted = s.halted) ∧
  (∀ s : State, s.halted = true → step s = .next s ∧ stepAccesses defaultRom s = []) ∧
  State.reset.halted = false

/-- Exactly when a step sets the fault latch, and to what (60 section 1; decisions D7, D8, D16). Which of
the opcode bytes named here are two-byte instructions is decisions D1 (0x17 to 0x19), D2 (0x22), D3 (0x23 to
0x28), D4 (0x2B to 0x2F) and D5 (0x30). -/
def Obligations.FaultLatchIsSetExactlyBy : Prop :=
  ∀ s t : State, step s = .next t → s.fault = none →
    (t.fault = some .invalidOpcode ↔ Running s ∧ UnboundAt s) ∧
    (t.fault = some .operandFetch ↔ Running s ∧ s.ip = 0xFF#9 ∧
      (OpcodeIn s 0x17 0x19 ∨ OpcodeIn s 0x20 0x28 ∨ OpcodeIn s 0x2B 0x2B ∨ OpcodeIn s 0x30 0x30 ∨
        OpcodeIn s 0x2C 0x2F ∧ testedFlag s = true))

/-- A fault transfers control nowhere and saves nothing; its whole effect is the latch and the pointer
advance of the faulting fetch (60 section 5; OperandFetch is decision D7, the latch decision D16). -/
def Obligations.FaultEntryIsPrecise : Prop :=
  ∀ (s t : State) (f : Fault), step s = .next t → s.fault = none → t.fault = some f →
    FaultEntry s t f

/-- A run ends (60 section 2) normally as Halted, by HLT, or as AddressExhausted, when sequential advance takes
the pointer past 0xFF: `IP` is 256 (a one-byte instruction at 0xFF or a two-byte one at 0xFE) or 257 (a
conditional jump not taken at 0xFF). Neither sets the fault latch, and both are stable. (The bytes of the
conditional jumps are decision D4, the value 257 decision D8.) -/
def Obligations.NormalEnds : Prop :=
  ∀ s t : State, Running s → step s = .next t →
    (status t = .halted ↔ fetchOpcode s = 0x3F#8) ∧
    (status t = .halted → t.fault = none ∧ step t = .next t) ∧
    (status t = .addressExhausted → t.fault = none ∧ t.halted = false ∧ step t = .next t ∧
      ∃ i, fetchInstr s = .ok i ∧
        (t.ip = 256#9 ∧ (s.ip = 0xFF#9 ∧ i.length = 1 ∨ s.ip = 0xFE#9 ∧ i.length = 2) ∨
          t.ip = 257#9 ∧ s.ip = 0xFF#9 ∧ OpcodeIn s 0x2C 0x2F ∧ testedFlag s = false)) ∧
    (t.fault = none → t.halted = false → 255 < t.ip.toNat → status t = .addressExhausted)

/-- How `IP` changes, for every instruction class, every unbound byte and the operand fetch at the end of
memory (10 section 2; bytes by decisions D1 to D5, the last row decision D7, the step over the operand byte
decision D8, the low byte of the return address decision D13). -/
def Obligations.PointerAfterStep : Prop :=
  ∀ s : State, Running s → ∃ t, step s = .next t ∧
    (OpcodeIn s 0x02 0x16 ∨ OpcodeIn s 0x1A 0x1F ∨ OpcodeIn s 0x29 0x2A ∨ OpcodeIn s 0x3E 0x3F →
      t.ip.toNat = s.ip.toNat + 1) ∧
    (OpcodeIn s 0x17 0x19 ∨ OpcodeIn s 0x20 0x28 →
      t.ip.toNat = if s.ip.toNat = 0xFF then 0x100 else s.ip.toNat + 2) ∧
    (OpcodeIn s 0x2B 0x2B ∨ OpcodeIn s 0x2C 0x2F ∧ testedFlag s = true →
      t.ip.toNat = if s.ip.toNat = 0xFF then 0x100 else (s.memRead (s.ipByte + 1#8)).toNat) ∧
    (OpcodeIn s 0x2C 0x2F ∧ testedFlag s = false → t.ip.toNat = s.ip.toNat + 2) ∧
    (OpcodeIn s 0x30 0x30 →
      (s.ip.toNat = 0xFF → t.ip.toNat = 0x100) ∧
      (s.ip.toNat ≠ 0xFF → t.ip.toNat = (s.memRead (s.ipByte + 1#8)).toNat ∧
        (s.mem.wf = true → (t.memRead 0xFF#8).toNat = (s.ip.toNat + 2) % 256))) ∧
    (OpcodeIn s 0x31 0x31 → t.ip.toNat = (s.memRead 0xFF#8).toNat) ∧
    (UnboundAt s → t.ip.toNat = s.ip.toNat + 1)

/-- Only the arithmetic and logic opcodes change a flag (10 R18; bytes by decision D1). -/
def Obligations.OnlyAluOpcodesChangeFlags : Prop :=
  ∀ s t : State, step s = .next t → t.flags ≠ s.flags → Running s ∧ OpcodeIn s 0x02 0x19

/-- No register changes but by the opcodes that 10 R11 lists as its writers (decisions D1 to D3). -/
def Obligations.RegisterWriters : Prop :=
  ∀ s t : State, step s = .next t →
    (t.a ≠ s.a → Running s ∧ (OpcodeIn s 0x02 0x0D ∨ fetchOpcode s ∈
      [0x10#8, 0x13#8, 0x16#8, 0x17#8, 0x18#8, 0x1A#8, 0x1B#8, 0x20#8, 0x23#8, 0x29#8])) ∧
    (t.b ≠ s.b → Running s ∧ fetchOpcode s ∈ [0x11#8, 0x14#8, 0x1C#8, 0x1D#8, 0x21#8, 0x24#8]) ∧
    (t.c ≠ s.c → Running s ∧ fetchOpcode s ∈ [0x12#8, 0x15#8, 0x1E#8, 0x1F#8, 0x22#8, 0x25#8])

/-- No byte of memory changes but the one that a store or CALL writes, at the address that 20 R31 gives
(bytes by decisions D3 and D5). -/
def Obligations.MemoryWriters : Prop :=
  ∀ (s t : State) (x : Byte), step s = .next t → t.memRead x ≠ s.memRead x →
    Running s ∧
      (OpcodeIn s 0x26 0x28 ∧ x = s.memRead (s.ipByte + 1#8) ∨
        fetchOpcode s = 0x2A#8 ∧ x = s.c ∨ fetchOpcode s = 0x30#8 ∧ x = 0xFF#8)

/-- Only the four conditional jumps read a flag: for every other opcode the step does the same to
registers, pointer, latches and memory whatever the flags are, and the flags after it either do not depend
on the flags before it or are those flags; after an ALU instruction that executes they never depend on them,
so no ALU instruction reads a flag (10 section 3; decision D10). The ALU range is 30 section 3; that 0x2C to
0x2F are the four conditional jumps is decision D4. -/
def Obligations.OnlyConditionalJumpsReadFlags : Prop :=
  ∀ (s t u : State) (f : Flags), ¬ OpcodeIn s 0x2C 0x2F → step s = .next t →
    step (s.setFlags f) = .next u →
    SameRegsBut [] t u ∧ u.ip = t.ip ∧ SameLatches t u ∧ SameMem t u ∧
      (u.flags = t.flags ∨ t.flags = s.flags ∧ u.flags = f) ∧
      (Running s → OpcodeIn s 0x02 0x19 → t.fault = none → u.flags = t.flags)

/-- The accesses of a step account for its memory: applying the writes of `stepAccesses` in order to the
memory before gives the memory after, under every decode ROM (decision D25); a step that fetches reads the
opcode first and makes at most three accesses, of which at most one is a write; and with the default ROM the
list, for every opcode byte and every address from 0x00 to 0xFF, is the one of 20 section 1. `stepAccesses`
is the model's form of the promise of decision D23 (log 18, DEDUCED). The bytes are decisions D1 (0x02 to
0x19), D2 (0x1A to 0x1F and 0x22), D3, D4 and D5; no operand read at 0xFF is D7, none before a jump not taken
is D8, and the byte that CALL writes is D13. -/
def Obligations.AccessesAccountForMemory : Prop :=
  (∀ (rom : Rom) (s : State),
    SameMem (applyAccesses (stepAccesses rom s) s) (stepWith rom s).1 ∧
    (stepAccesses rom s).length ≤ 3 ∧
    ((stepAccesses rom s).filter fun x => match x with
      | .write .. => true
      | .read _ => false).length ≤ 1 ∧
    (s.terminal = false → (stepAccesses rom s).head? = some (.read s.ipByte))) ∧
  ∀ s : State, Running s →
    let opnd := s.memRead (s.ipByte + 1#8)
    let readOp := Access.read s.ipByte
    let readOpnd := Access.read (s.ipByte + 1#8)
    (OpcodeIn s 0x02 0x16 ∨ OpcodeIn s 0x1A 0x1F ∨ OpcodeIn s 0x3E 0x3F ∨ UnboundAt s →
      stepAccesses defaultRom s = [readOp]) ∧
    (fetchOpcode s = 0x29#8 → stepAccesses defaultRom s = [readOp, .read s.c]) ∧
    (fetchOpcode s = 0x2A#8 → stepAccesses defaultRom s = [readOp, .write s.c s.a]) ∧
    (fetchOpcode s = 0x31#8 → stepAccesses defaultRom s = [readOp, .read 0xFF#8]) ∧
    (s.ip.toNat ≤ 0xFE →
      (OpcodeIn s 0x17 0x19 ∨ OpcodeIn s 0x20 0x22 ∨ OpcodeIn s 0x2B 0x2B →
        stepAccesses defaultRom s = [readOp, readOpnd]) ∧
      (OpcodeIn s 0x23 0x25 → stepAccesses defaultRom s = [readOp, readOpnd, .read opnd]) ∧
      (fetchOpcode s = 0x26#8 → stepAccesses defaultRom s = [readOp, readOpnd, .write opnd s.a]) ∧
      (fetchOpcode s = 0x27#8 → stepAccesses defaultRom s = [readOp, readOpnd, .write opnd s.b]) ∧
      (fetchOpcode s = 0x28#8 → stepAccesses defaultRom s = [readOp, readOpnd, .write opnd s.c]) ∧
      (OpcodeIn s 0x2C 0x2F →
        stepAccesses defaultRom s = if testedFlag s then [readOp, readOpnd] else [readOp]) ∧
      (fetchOpcode s = 0x30#8 → stepAccesses defaultRom s =
        [readOp, readOpnd, .write 0xFF#8 (s.ipByte + 2#8)])) ∧
    (s.ip = 0xFF#9 →
      OpcodeIn s 0x17 0x19 ∨ OpcodeIn s 0x20 0x28 ∨ OpcodeIn s 0x2B 0x30 →
        stepAccesses defaultRom s = [readOp])

/-! ### Invariants -/

/-- Every step keeps the invariant: the memory's canonical form, the range of `IP`, and where the pointer
stands after a fault or a halt. -/
def Obligations.StepKeepsInvariant : Prop :=
  ∀ s t : State, Inv s → step s = .next t → Inv t

/-- The invariant holds at reset. -/
def Obligations.InvariantAtReset : Prop := Inv State.reset

/-- The step under every decode ROM keeps the invariant (30 R57, decision D25). -/
def Obligations.EveryRomKeepsInvariant : Prop :=
  ∀ (rom : Rom) (s : State), Inv s → Inv (stepWith rom s).1

/-- Every state that reset, load, host writes and steps can make meets the invariant (10 R27). -/
def Obligations.ReachableStatesMeetInvariant : Prop := ∀ s : State, Reachable s → Inv s

/-! ### The ALU -/

/-- 40 R83: the flag contract, from the widened sum and the two effective operands, whatever these are;
the flags of every function of the ALU core are derived by it; and every ALU action, a comparing one too,
writes all four flags. -/
def Obligations.FlagContract : Prop :=
  (∀ (x e2 : Byte) (wide : BitVec 9),
    FlagsAre (aluFlags x e2 wide) (wide.setWidth 8) (255 < wide.toNat)
      ((128 ≤ x.toNat ↔ 128 ≤ e2.toNat) ∧ ¬ (128 ≤ wide.toNat % 256 ↔ 128 ≤ x.toNat))) ∧
  (∀ (fn : AluFn) (x y : Byte) (cin : Bool),
    (aluCore fn x y cin).res = (aluWide fn x y cin).setWidth 8 ∧
    (aluCore fn x y cin).flags = aluFlags x (aluEffective fn y) (aluWide fn x y cin)) ∧
  ∀ (fn : AluFn) (cin wb : Bool) (ra : Reg) (y : Byte) (s : State),
    (aluAction fn cin wb ra y s).flags = (aluCore fn (s.readReg ra) y cin).flags

/-- The ALU core of 40 section 1: its widened sum, its result and its flags, as numbers (the effective
operand of a subtraction is decision D9, the logic functions and NOT are decisions D11 and D12). -/
def Obligations.AluCoreComputes : Prop :=
  ∀ (fn : AluFn) (x y : Byte) (cin : Bool),
    let out := aluCore fn x y cin
    let e2 : Nat := match fn with
      | .sub => 255 - y.toNat
      | .not => 0
      | _ => y.toNat
    let wide : Nat := match fn with
      | .add | .sub => x.toNat + e2 + cin.toNat
      | .and => (x &&& y).toNat
      | .or => (x ||| y).toNat
      | .xor => (x ^^^ y).toNat
      | .not => 255 - x.toNat
    out.res.toNat = wide % 256 ∧
    FlagsAre out.flags out.res (255 < wide)
      ((128 ≤ x.toNat ↔ 128 ≤ e2) ∧ ¬ (128 ≤ out.res.toNat ↔ 128 ≤ x.toNat))

/-- 40 R87: the closed forms of the ALU, over all operand pairs (decisions D9 to D12). -/
def Obligations.AluClosedForms : Prop :=
  ∀ a b : Byte,
    (let o := aluCore .add a b false
     o.res = a + b ∧ FlagsAre o.flags o.res (255 < a.toNat + b.toNat)
       (OutsideSigned (a.toInt + b.toInt))) ∧
    (let o := aluCore .sub a b true
     o.res = a - b ∧ FlagsAre o.flags o.res (b.toNat ≤ a.toNat)
       (OutsideSigned (a.toInt - b.toInt))) ∧
    (let o := aluCore .sub a b false
     o.res = a - b - 1#8 ∧ FlagsAre o.flags o.res (b.toNat < a.toNat)
       (OutsideSigned (a.toInt - b.toInt - 1))) ∧
    (let o := aluCore .and a b false
     o.res = a &&& b ∧ FlagsAre o.flags o.res False False) ∧
    (let o := aluCore .or a b false
     o.res = a ||| b ∧ FlagsAre o.flags o.res False False) ∧
    (let o := aluCore .xor a b false
     o.res = a ^^^ b ∧ FlagsAre o.flags o.res False (128 ≤ a.toNat ∧ 128 ≤ b.toNat)) ∧
    (let o := aluCore .not a b false
     o.res.toNat = 255 - a.toNat ∧ FlagsAre o.flags o.res False (a.toNat < 128) ∧
       (o.flags.z = true ↔ a = 0xFF#8)) ∧
    (let o := aluCore .add a 0x01#8 false
     (o.flags.c = true ↔ a = 0xFF#8) ∧ (o.flags.v = true ↔ a = 0x7F#8)) ∧
    (let o := aluCore .sub a 0x01#8 true
     (o.flags.c = false ↔ a = 0x00#8) ∧ (o.flags.v = true ↔ a = 0x80#8))

/-! ### Arithmetic and logic instructions

In each statement `len` is the encoded length, and the hypothesis says that the instruction's bytes lie in
memory; a two-byte instruction at 0xFF is the subject of `OperandFetchAtLastCell`. -/

/-- 40 R90: `ADD B`, byte 0x02: A gets the sum modulo 256, B is not changed, all four flags are written. -/
def Obligations.AddBResult : Prop :=
  encode .addB = [0x02#8] ∧
  defaultRom 0x02#8 = some ⟨"ADD B", .alu .none .add false true .A (some .B)⟩ ∧
  ∀ s : State, s.ip.toNat + 1 ≤ 256 →
    ∃ t, exec .addB s = .next t ∧
      AluEffect s t 1 (some .A) (s.a + s.b) (255 < s.a.toNat + s.b.toNat)
        (OutsideSigned (s.a.toInt + s.b.toInt))

/-- `ADD C` and `ADI`: the sum, as by `ADD B`, with register C or the immediate byte (40 section 2;
decision D1). -/
def Obligations.AddFamilyResult : Prop :=
  ∀ (s : State) (n : Byte) (i : Instr) (y : Byte) (len : Nat),
    (i, y, len) ∈ [(.addC, s.c, 1), (.adi n, n, 2)] → s.ip.toNat + len ≤ 256 →
    ∃ t, exec i s = .next t ∧
      AluEffect s t len (some .A) (s.a + y) (255 < s.a.toNat + y.toNat)
        (OutsideSigned (s.a.toInt + y.toInt))

/-- `SUB B`, `SUB C`, `SUI`: the difference; carry means "no borrow" (40 R92, R93, R112; decisions D1,
D9). -/
def Obligations.SubtractFamilyResult : Prop :=
  ∀ (s : State) (n : Byte) (i : Instr) (y : Byte) (len : Nat),
    (i, y, len) ∈ [(.subB, s.b, 1), (.subC, s.c, 1), (.sui n, n, 2)] → s.ip.toNat + len ≤ 256 →
    ∃ t, exec i s = .next t ∧
      AluEffect s t len (some .A) (s.a - y) (y.toNat ≤ s.a.toNat)
        (OutsideSigned (s.a.toInt - y.toInt))

/-- `SBB B`, `SBB C`: one more is subtracted always, whatever `F.C` holds (40 R94, R95; decisions D1,
D9, D10). -/
def Obligations.SubtractOneMoreResult : Prop :=
  ∀ (s : State) (i : Instr) (y : Byte), (i, y) ∈ [(.sbbB, s.b), (.sbbC, s.c)] →
    s.ip.toNat + 1 ≤ 256 →
    ∃ t, exec i s = .next t ∧
      AluEffect s t 1 (some .A) (s.a - y - 1#8) (y.toNat < s.a.toNat)
        (OutsideSigned (s.a.toInt - y.toInt - 1))

/-- `ANA`, `ORA`, `XRA` with B and C: the bitwise result; carry is cleared; overflow is cleared by AND and
OR, and set by XOR exactly when both operands have bit 7 set (40 R96 to R101; decisions D1, D11). -/
def Obligations.LogicFamilyResult : Prop :=
  ∀ (s : State) (i : Instr) (y res : Byte) (overflow : Prop),
    ((i, y) ∈ [(.anaB, s.b), (.anaC, s.c)] ∧ res = s.a &&& y ∧ (overflow ↔ False) ∨
      (i, y) ∈ [(.oraB, s.b), (.oraC, s.c)] ∧ res = s.a ||| y ∧ (overflow ↔ False) ∨
      (i, y) ∈ [(.xraB, s.b), (.xraC, s.c)] ∧ res = s.a ^^^ y ∧
        (overflow ↔ 128 ≤ s.a.toNat ∧ 128 ≤ y.toNat)) →
    s.ip.toNat + 1 ≤ 256 →
    ∃ t, exec i s = .next t ∧ AluEffect s t 1 (some .A) res False overflow

/-- `CMP B`, `CMP C`, `CPI`: the flags of the subtraction; no register changes (40 R102, R103, R113;
decisions D1, D9). -/
def Obligations.CompareResult : Prop :=
  ∀ (s : State) (n : Byte) (i : Instr) (y : Byte) (len : Nat),
    (i, y, len) ∈ [(.cmpB, s.b, 1), (.cmpC, s.c, 1), (.cpi n, n, 2)] → s.ip.toNat + len ≤ 256 →
    ∃ t, exec i s = .next t ∧
      AluEffect s t len none (s.a - y) (y.toNat ≤ s.a.toNat) (OutsideSigned (s.a.toInt - y.toInt))

/-- `INR` and `DCR` of A, B and C: plus or minus the constant 1, with the carry flag written as by any
addition or subtraction (40 R104 to R109; bytes by decision D1). -/
def Obligations.IncrementDecrementResult : Prop :=
  ∀ (s : State) (r : Reg) (i : Instr), s.ip.toNat + 1 ≤ 256 →
    ((i, r) ∈ [(.inrA, .A), (.inrB, .B), (.inrC, .C)] →
      ∃ t, exec i s = .next t ∧
        AluEffect s t 1 (some r) (s.readReg r + 1#8) (s.readReg r = 0xFF#8)
          (s.readReg r = 0x7F#8)) ∧
    ((i, r) ∈ [(.dcrA, .A), (.dcrB, .B), (.dcrC, .C)] →
      ∃ t, exec i s = .next t ∧
        AluEffect s t 1 (some r) (s.readReg r - 1#8) (s.readReg r ≠ 0x00#8)
          (s.readReg r = 0x80#8))

/-- `CMA`: the complement; carry is cleared; overflow is set exactly when the old A was below 0x80; two in a
row restore A (40 R110; decisions D1, D12). -/
def Obligations.ComplementResult : Prop :=
  ∀ s : State, s.ip.toNat + 1 ≤ 256 →
    ∃ t, exec .cma s = .next t ∧ AluEffect s t 1 (some .A) (~~~s.a) False (s.a.toNat < 128) ∧
      ∃ u, exec .cma t = .next u ∧ u.a = s.a

/-! ### Moves, loads and stores -/

/-- The six `MOV`: the first register gets the value of the second; every other register, all flags, memory
and latches are unchanged (41 R120 to R126; the bytes and the direction are decision D2). -/
def Obligations.MoveResult : Prop :=
  ∀ (s : State) (d r : Reg) (i : Instr),
    (i, d, r) ∈ [(.movAB, .A, .B), (.movAC, .A, .C), (.movBA, .B, .A), (.movBC, .B, .C),
      (.movCA, .C, .A), (.movCB, .C, .B)] → s.ip.toNat + 1 ≤ 256 →
    ∃ t, exec i s = .next t ∧ t.readReg d = s.readReg r ∧ SameRegsBut [d] s t ∧ t.flags = s.flags ∧
      t.ip = s.ip + 1#9 ∧ SameMem s t ∧ SameLatches s t

/-- `MVI A`, `MVI B` and `MVI C` load the immediate byte, with no flag touched, and at address 0xFF raise
OperandFetch with the register unchanged (41 section 3; `MVI C` is decision D2, the fault decision D7). -/
def Obligations.ImmediateLoadResult : Prop :=
  (∀ n : Byte, encode (.mviA n) = [0x20#8, n] ∧ encode (.mviB n) = [0x21#8, n]) ∧
  defaultRom 0x20#8 = some ⟨"MVI A", .mvi .A⟩ ∧ defaultRom 0x21#8 = some ⟨"MVI B", .mvi .B⟩ ∧
  ∀ (s : State) (n : Byte) (i : Instr) (d : Reg),
    (i, d) ∈ [(.mviA n, .A), (.mviB n, .B), (.mviC n, .C)] →
    (s.ip.toNat + 2 ≤ 256 →
      ∃ t, exec i s = .next t ∧ t.readReg d = n ∧ SameRegsBut [d] s t ∧ t.flags = s.flags ∧
        t.ip = s.ip + 2#9 ∧ SameMem s t ∧ SameLatches s t) ∧
    (s.ip = 0xFF#9 → ∃ t, exec i s = .next t ∧ FaultEntry s t .operandFetch)

/-- `LDA`, `LDB`, `LDC` and `LDA C`: the register gets the byte of the cell at the operand address or at
the address in C; nothing is stored and no flag is touched (42 R130 to R133, R137; decision D3). -/
def Obligations.LoadResult : Prop :=
  ∀ (s : State) (x : Byte) (i : Instr) (d : Reg) (addr : Byte) (len : Nat),
    (i, d, addr, len) ∈ [(.lda x, .A, x, 2), (.ldb x, .B, x, 2), (.ldc x, .C, x, 2),
      (.ldaC, .A, s.c, 1)] → s.ip.toNat + len ≤ 256 →
    ∃ t, exec i s = .next t ∧ t.readReg d = s.memRead addr ∧ SameRegsBut [d] s t ∧
      t.flags = s.flags ∧ t.ip = s.ip + BitVec.ofNat 9 len ∧ SameMem s t ∧ SameLatches s t

/-- `STA`, `STB`, `STC` and `STA C`: the cell at the operand address or at the address in C gets the byte of
the register; every other cell, every register and every flag is unchanged (42 R130, R134 to R136, R138;
decision D3). The address is `effectiveAddr`, the function that the meaning's descriptor uses. -/
def Obligations.StoreResult : Prop :=
  ∀ (s : State) (x : Byte) (i : Instr) (r : Reg) (rb : Option Reg) (len : Nat),
    (i, r, rb, len) ∈ [(.sta x, .A, none, 2), (.stb x, .B, none, 2), (.stc x, .C, none, 2),
      (.staC, .A, some .C, 1)] → s.ip.toNat + len ≤ 256 → s.mem.wf = true →
    ∃ t, exec i s = .next t ∧ t.memRead (effectiveAddr s rb x) = s.readReg r ∧
      SameMemBut (effectiveAddr s rb x) s t ∧ SameRegsBut [] s t ∧ t.flags = s.flags ∧
      t.ip = s.ip + BitVec.ofNat 9 len ∧ SameLatches s t

/-- A store is seen by the very next fetch: when `STA` writes the cell to which the pointer then points,
the next step executes the stored byte as its opcode (20 R42, an inference the spec marks as its own). -/
def Obligations.StoreIsSeenByNextFetch : Prop :=
  ∀ (s t : State) (x : Byte) (i : Instr), Running s → s.mem.wf = true → s.ip.toNat + 2 ≤ 255 →
    x = s.ipByte + 2#8 → exec (.sta x) s = .next t → decodeOp s.a (fetchNextByte t) = .ok i →
    fetchOpcode t = s.a ∧ step t = exec i t

/-! ### Jumps, call and return -/

/-- Jump dispatch (43 section 1). `JMP` always, and `JS`, `JZ`, `JC`, `JV` when their flag is 1, set the pointer
to the operand byte, zero-extended; when the flag is 0 the pointer advances exactly 2 and the operand byte
is not read, at 0xFF too. No jump writes a flag, a register or memory. (Bytes: decision D4; not reading:
decision D8.) -/
def Obligations.JumpDispatch : Prop :=
  (∀ (s : State) (x : Byte) (i : Instr) (taken : Bool),
    (i, taken) ∈ [(.jmp x, true), (.js x, s.flags.s), (.jz x, s.flags.z), (.jc x, s.flags.c),
      (.jv x, s.flags.v)] →
    (taken = true ∧ s.ip.toNat + 2 ≤ 256 ∨ taken = false ∧ s.ip.toNat + 1 ≤ 256) →
    ∃ t, exec i s = .next t ∧ t.ip.toNat = (if taken then x.toNat else s.ip.toNat + 2) ∧
      SameRegsBut [] s t ∧ t.flags = s.flags ∧ SameMem s t ∧ SameLatches s t) ∧
  ∀ s : State, Running s → OpcodeIn s 0x2C 0x2F → testedFlag s = false →
    stepAccesses defaultRom s = [.read s.ipByte]

/-- `CALL`: the address after the operand byte, its low 8 bits, goes to cell 0xFF, and the pointer becomes
the operand byte (44 R151; bytes by decision D5; the truncation is decision D13). -/
def Obligations.CallResult : Prop :=
  ∀ (s : State) (x : Byte), s.ip.toNat + 2 ≤ 256 → s.mem.wf = true →
    ∃ t, exec (.call x) s = .next t ∧ t.ip.toNat = x.toNat ∧
      (t.memRead 0xFF#8).toNat = (s.ip.toNat + 2) % 256 ∧ SameMemBut 0xFF#8 s t ∧
      SameRegsBut [] s t ∧ t.flags = s.flags ∧ SameLatches s t

/-- `RET` (44 section 2) sets the pointer to the content of cell 0xFF, zero-extended, so it is always in bounds;
nothing is written (byte by decision D5). -/
def Obligations.ReturnResult : Prop :=
  encode .ret = [0x31#8] ∧ defaultRom 0x31#8 = some ⟨"RET", .ret⟩ ∧
  (∀ s : State, s.ip.toNat + 1 ≤ 256 →
    ∃ t, exec .ret s = .next t ∧ t.ip.toNat = (s.memRead 0xFF#8).toNat ∧ t.ip.toNat ≤ 255 ∧
      SameRegsBut [] s t ∧ t.flags = s.flags ∧ SameMem s t ∧ SameLatches s t) ∧
  ∀ s : State, Running s → s.ip = 0xFF#9 → fetchOpcode s = 0x31#8 →
    ∃ t, step s = .next t ∧ t.ip = 0x031#9

/-- The call convention (44 R150, consequences that the spec marks as its own, and decision D13): a `RET`
after a `CALL` returns to the byte after the operand as long as cell 0xFF keeps its value; after a `CALL`
at 0xFE it returns to 0x00; this holds from every state, so of two calls in a row the second decides where
`RET` goes; and `RET` leaves the cell as it is, so a second `RET` goes to the same place. -/
def Obligations.ReturnGoesAfterCall : Prop :=
  ∀ (s u v w : State) (x : Byte), s.mem.wf = true → s.ip.toNat + 2 ≤ 256 → exec (.call x) s = .next u →
    v.memRead 0xFF#8 = u.memRead 0xFF#8 → exec .ret v = .next w →
    (s.ip.toNat ≤ 0xFD → w.ip = s.ip + 2#9) ∧ (s.ip = 0xFE#9 → w.ip = 0x000#9) ∧
    ∀ r, exec .ret w = .next r → r.ip = w.ip

/-- A `CALL` at 0xFE has its operand in the return slot: the target is read first, then the slot gets 0x00
(44 R151 corner case 1; decision D13). -/
def Obligations.CallAtReturnSlotEdge : Prop :=
  ∀ s : State, Running s → s.mem.wf = true → s.ip = 0xFE#9 → fetchOpcode s = 0x30#8 →
    ∃ t, step s = .next t ∧ t.ip.toNat = (s.memRead 0xFF#8).toNat ∧ t.memRead 0xFF#8 = 0x00#8 ∧
      SameMemBut 0xFF#8 s t

/-! ### System instructions and the operand fetch -/

/-- 45 R155: `NOP` changes nothing but the pointer; at 0xFF the step reports AddressExhausted. -/
def Obligations.NopResult : Prop :=
  encode .nop = [0x3E#8] ∧ defaultRom 0x3E#8 = some ⟨"NOP", .nop⟩ ∧
  (∀ s : State, s.ip.toNat + 1 ≤ 256 →
    ∃ t, exec .nop s = .next t ∧ t.ip.toNat = s.ip.toNat + 1 ∧ SameRegsBut [] s t ∧
      t.flags = s.flags ∧ SameMem s t ∧ SameLatches s t) ∧
  ∀ s : State, Running s → s.ip = 0xFF#9 → fetchOpcode s = 0x3E#8 →
    ∃ t, step s = .next t ∧ t.ip = 256#9 ∧ (reportOf s t).result = .addressExhausted

/-- `HLT` sets `halted` and changes nothing else but the pointer; its step reports Halted, at 0xFF too
(45 R156; the order of the tests is decision D15). -/
def Obligations.HaltResult : Prop :=
  (∀ s : State, s.ip.toNat + 1 ≤ 256 →
    ∃ t, exec .hlt s = .next t ∧ t.halted = true ∧ t.fault = s.fault ∧
      t.ip.toNat = s.ip.toNat + 1 ∧ SameRegsBut [] s t ∧ t.flags = s.flags ∧ SameMem s t) ∧
  ∀ s : State, Running s → fetchOpcode s = 0x3F#8 →
    ∃ t, step s = .next t ∧ (reportOf s t).result = .halted ∧ step t = .next t

/-- A two-byte instruction at 0xFF that needs its operand raises OperandFetch, and no register, flag or
cell changes; a conditional jump whose flag is 0 does not need it and leaves `IP` = 257 (60 R161, 30 R63;
decisions D7, D8). -/
def Obligations.OperandFetchAtLastCell : Prop :=
  ∀ (s : State) (n : Byte), s.ip = 0xFF#9 →
    (∀ i ∈ [Instr.adi n, .sui n, .cpi n, .mviA n, .mviB n, .mviC n, .lda n, .ldb n, .ldc n, .sta n,
        .stb n, .stc n, .jmp n, .call n],
      ∃ t, exec i s = .next t ∧ FaultEntry s t .operandFetch) ∧
    ∀ p ∈ [(Instr.js n, s.flags.s), (.jz n, s.flags.z), (.jc n, s.flags.c), (.jv n, s.flags.v)],
      ∃ t, exec p.1 s = .next t ∧
        if p.2 then FaultEntry s t .operandFetch
        else t.ip = 257#9 ∧ SameRegsBut [] s t ∧ t.flags = s.flags ∧ SameMem s t ∧ SameLatches s t

/-! ### Reset and the host -/

/-- 10 R12, R19, R23: after reset every register, every flag and every memory cell is zero, and a load then
leaves 0x00 in every cell that it does not write. -/
def Obligations.ResetValues : Prop :=
  (∀ r, State.reset.readReg r = 0x00#8) ∧ (∀ f, State.reset.readFlag f = false) ∧
  (∀ addr, State.reset.memRead addr = 0x00#8) ∧
  ∀ (p : List Byte) (t : State), boot p = .ok t →
    ∀ addr, t.memRead addr = (p[addr.toNat]?).getD 0x00#8

/-- After reset the pointer is 0x000 (decision D14), `halted` is 0 and `fault` is None (decision D16); and a
first step with nothing loaded raises InvalidOpcode, because 0x00 is unbound (70 section 1). -/
def Obligations.ResetControlState : Prop :=
  State.reset.ip = 0x000#9 ∧ State.reset.halted = false ∧ State.reset.fault = none ∧
  Running State.reset ∧ UnboundAt State.reset ∧
  ∃ t, step State.reset = .next t ∧ FaultEntry State.reset t .invalidOpcode

/-- 20 R38: a load fails exactly when the program is longer than 256 bytes, and then it gives no state. -/
def Obligations.LoadFailsWhenTooLong : Prop :=
  ∀ (p : List Byte) (s : State),
    (256 < p.length → loadProgram p s = .error .programTooLarge) ∧
    (p.length ≤ 256 → ∃ t, loadProgram p s = .ok t)

/-- A load puts the program into the cells from 0x00 on; every other cell, every register, flag and latch
and the pointer are unchanged (70 section 2; decision D19). -/
def Obligations.LoadCopiesProgram : Prop :=
  ∀ (p : List Byte) (s : State), p.length ≤ 256 → s.mem.wf = true →
    ∃ t, loadProgram p s = .ok t ∧
      (∀ addr, t.memRead addr = (p[addr.toNat]?).getD (s.memRead addr)) ∧
      SameRegsBut [] s t ∧ t.flags = s.flags ∧ t.ip = s.ip ∧ SameLatches s t

/-- A host write between two steps changes one cell and nothing else, and is seen by the next fetch of
that cell (60 R174, decision D20). -/
def Obligations.HostWriteChangesOneCell : Prop :=
  ∀ (s : State) (x v : Byte), s.mem.wf = true →
    (hostWrite x v s).memRead x = v ∧ SameMemBut x s (hostWrite x v s) ∧
    SameRegsBut [] s (hostWrite x v s) ∧ (hostWrite x v s).flags = s.flags ∧
    (hostWrite x v s).ip = s.ip ∧ SameLatches s (hostWrite x v s) ∧
    (s.ipByte = x → fetchOpcode (hostWrite x v s) = v)

/-- A run's result is final: it is what the last state calls for, more steps do not change it, and the last
state is terminal (30 R62; decisions D15, D22). -/
def Obligations.RunResultIsFinal : Prop :=
  ∀ (k m : Nat) (s t : State) (r : StepResult), run k s = some (t, r) →
    r = status t ∧ r ≠ .continuing ∧ t.terminal = true ∧ run (k + m) s = some (t, r)
end

