-- ==== Sys2Proof/Laws/State.lean ====
section
/-! SUPPORT. What each update of State leaves in each field: one lemma per field per update. -/

namespace Sys2Proof.Machine

variable (s : State)

/-! ### `writeReg` -/

@[simp] theorem writeReg_ip (r : Reg) (v : Byte) : (s.writeReg r v).ip = s.ip := by cases r <;> rfl
@[simp] theorem writeReg_flags (r : Reg) (v : Byte) : (s.writeReg r v).flags = s.flags := by
  cases r <;> rfl
@[simp] theorem writeReg_halted (r : Reg) (v : Byte) : (s.writeReg r v).halted = s.halted := by
  cases r <;> rfl
@[simp] theorem writeReg_fault (r : Reg) (v : Byte) : (s.writeReg r v).fault = s.fault := by
  cases r <;> rfl
@[simp] theorem writeReg_mem (r : Reg) (v : Byte) : (s.writeReg r v).mem = s.mem := by cases r <;> rfl
@[simp] theorem writeReg_memRead (r : Reg) (v x : Byte) :
    (s.writeReg r v).memRead x = s.memRead x := by cases r <;> rfl

/-- A register write is read back in its register and nowhere else. -/
@[simp] theorem readReg_writeReg (r r' : Reg) (v : Byte) :
    (s.writeReg r v).readReg r' = if r = r' then v else s.readReg r' := by
  cases r <;> cases r' <;> rfl

/-! ### `setFlags` -/

@[simp] theorem setFlags_a (f : Flags) : (s.setFlags f).a = s.a := rfl
@[simp] theorem setFlags_b (f : Flags) : (s.setFlags f).b = s.b := rfl
@[simp] theorem setFlags_c (f : Flags) : (s.setFlags f).c = s.c := rfl
@[simp] theorem setFlags_ip (f : Flags) : (s.setFlags f).ip = s.ip := rfl
@[simp] theorem setFlags_flags (f : Flags) : (s.setFlags f).flags = f := rfl
@[simp] theorem setFlags_halted (f : Flags) : (s.setFlags f).halted = s.halted := rfl
@[simp] theorem setFlags_fault (f : Flags) : (s.setFlags f).fault = s.fault := rfl
@[simp] theorem setFlags_mem (f : Flags) : (s.setFlags f).mem = s.mem := rfl
@[simp] theorem setFlags_readReg (f : Flags) (r : Reg) : (s.setFlags f).readReg r = s.readReg r := by
  cases r <;> rfl
@[simp] theorem setFlags_memRead (f : Flags) (x : Byte) : (s.setFlags f).memRead x = s.memRead x := rfl

/-! ### `setIp` and `advance` -/

@[simp] theorem setIp_a (p : Ptr) : (s.setIp p).a = s.a := rfl
@[simp] theorem setIp_b (p : Ptr) : (s.setIp p).b = s.b := rfl
@[simp] theorem setIp_c (p : Ptr) : (s.setIp p).c = s.c := rfl
@[simp] theorem setIp_ip (p : Ptr) : (s.setIp p).ip = p := rfl
@[simp] theorem setIp_flags (p : Ptr) : (s.setIp p).flags = s.flags := rfl
@[simp] theorem setIp_halted (p : Ptr) : (s.setIp p).halted = s.halted := rfl
@[simp] theorem setIp_fault (p : Ptr) : (s.setIp p).fault = s.fault := rfl
@[simp] theorem setIp_mem (p : Ptr) : (s.setIp p).mem = s.mem := rfl
@[simp] theorem setIp_readReg (p : Ptr) (r : Reg) : (s.setIp p).readReg r = s.readReg r := by
  cases r <;> rfl
@[simp] theorem setIp_readFlag (p : Ptr) (f : Flag) : (s.setIp p).readFlag f = s.readFlag f := by
  cases f <;> rfl
@[simp] theorem setIp_memRead (p : Ptr) (x : Byte) : (s.setIp p).memRead x = s.memRead x := rfl

@[simp] theorem advance_a (n : Nat) : (s.advance n).a = s.a := rfl
@[simp] theorem advance_b (n : Nat) : (s.advance n).b = s.b := rfl
@[simp] theorem advance_c (n : Nat) : (s.advance n).c = s.c := rfl
@[simp] theorem advance_ip (n : Nat) : (s.advance n).ip = s.ip + BitVec.ofNat 9 n := rfl
@[simp] theorem advance_flags (n : Nat) : (s.advance n).flags = s.flags := rfl
@[simp] theorem advance_halted (n : Nat) : (s.advance n).halted = s.halted := rfl
@[simp] theorem advance_fault (n : Nat) : (s.advance n).fault = s.fault := rfl
@[simp] theorem advance_mem (n : Nat) : (s.advance n).mem = s.mem := rfl
@[simp] theorem advance_readReg (n : Nat) (r : Reg) : (s.advance n).readReg r = s.readReg r := by
  cases r <;> rfl
@[simp] theorem advance_readFlag (n : Nat) (f : Flag) : (s.advance n).readFlag f = s.readFlag f := by
  cases f <;> rfl
@[simp] theorem advance_memRead (n : Nat) (x : Byte) : (s.advance n).memRead x = s.memRead x := rfl

/-! ### `setHalted` and `raise` -/

@[simp] theorem setHalted_a : s.setHalted.a = s.a := rfl
@[simp] theorem setHalted_b : s.setHalted.b = s.b := rfl
@[simp] theorem setHalted_c : s.setHalted.c = s.c := rfl
@[simp] theorem setHalted_ip : s.setHalted.ip = s.ip := rfl
@[simp] theorem setHalted_flags : s.setHalted.flags = s.flags := rfl
@[simp] theorem setHalted_halted : s.setHalted.halted = true := rfl
@[simp] theorem setHalted_fault : s.setHalted.fault = s.fault := rfl
@[simp] theorem setHalted_mem : s.setHalted.mem = s.mem := rfl
@[simp] theorem setHalted_readReg (r : Reg) : s.setHalted.readReg r = s.readReg r := by cases r <;> rfl
@[simp] theorem setHalted_memRead (x : Byte) : s.setHalted.memRead x = s.memRead x := rfl

@[simp] theorem raise_a (f : Fault) : (s.raise f).a = s.a := rfl
@[simp] theorem raise_b (f : Fault) : (s.raise f).b = s.b := rfl
@[simp] theorem raise_c (f : Fault) : (s.raise f).c = s.c := rfl
@[simp] theorem raise_ip (f : Fault) : (s.raise f).ip = s.ip := rfl
@[simp] theorem raise_flags (f : Fault) : (s.raise f).flags = s.flags := rfl
@[simp] theorem raise_halted (f : Fault) : (s.raise f).halted = s.halted := rfl
@[simp] theorem raise_fault (f : Fault) : (s.raise f).fault = some f := rfl
@[simp] theorem raise_mem (f : Fault) : (s.raise f).mem = s.mem := rfl
@[simp] theorem raise_readReg (f : Fault) (r : Reg) : (s.raise f).readReg r = s.readReg r := by
  cases r <;> rfl
@[simp] theorem raise_memRead (f : Fault) (x : Byte) : (s.raise f).memRead x = s.memRead x := rfl

/-! ### `memWrite` -/

@[simp] theorem memWrite_a (x v : Byte) : (s.memWrite x v).a = s.a := rfl
@[simp] theorem memWrite_b (x v : Byte) : (s.memWrite x v).b = s.b := rfl
@[simp] theorem memWrite_c (x v : Byte) : (s.memWrite x v).c = s.c := rfl
@[simp] theorem memWrite_ip (x v : Byte) : (s.memWrite x v).ip = s.ip := rfl
@[simp] theorem memWrite_flags (x v : Byte) : (s.memWrite x v).flags = s.flags := rfl
@[simp] theorem memWrite_halted (x v : Byte) : (s.memWrite x v).halted = s.halted := rfl
@[simp] theorem memWrite_fault (x v : Byte) : (s.memWrite x v).fault = s.fault := rfl
@[simp] theorem memWrite_readReg (x v : Byte) (r : Reg) :
    (s.memWrite x v).readReg r = s.readReg r := by cases r <;> rfl
@[simp] theorem memWrite_readFlag (x v : Byte) (f : Flag) :
    (s.memWrite x v).readFlag f = s.readFlag f := by cases f <;> rfl

/-! ### A state from its parts -/

/-- Two states are equal when all their registers, their pointer, flags, latches and memory are. -/
theorem State.ext_parts (s t : State) (hr : ∀ r, s.readReg r = t.readReg r) (hi : s.ip = t.ip)
    (hf : s.flags = t.flags) (hh : s.halted = t.halted) (hx : s.fault = t.fault)
    (hm : s.mem = t.mem) : s = t := by
  have ha := hr .A
  have hb := hr .B
  have hc := hr .C
  cases s
  cases t
  simp_all [State.readReg]

end Sys2Proof.Machine
end

