-- ==== Sys2Proof/Laws/Memory.lean ====
section
/-! SUPPORT. The laws of memory: a read after a write, and the canonical form. -/

namespace Sys2Proof.Machine

/-- A form that holds from `lo` on holds from every lower bound on. -/
theorem wfFrom_mono : ∀ (m : Memory) (lo lo' : Nat), lo' ≤ lo → Memory.wfFrom lo m = true →
    Memory.wfFrom lo' m = true
  | [], _, _, _, _ => rfl
  | (j, v) :: rest, lo, lo', h, hw => by
    simp only [Memory.wfFrom, Bool.and_eq_true, decide_eq_true_eq] at hw ⊢
    exact ⟨⟨⟨by omega, hw.1.1.2⟩, hw.1.2⟩, hw.2⟩

/-- An address below every listed one reads as an unlisted address. -/
theorem lookup_below : ∀ (m : Memory) (lo k : Nat), Memory.wfFrom lo m = true → k < lo →
    m.lookup k = Memory.unlisted
  | [], _, _, _, _ => rfl
  | (j, v) :: rest, lo, k, hw, hk => by
    simp only [Memory.wfFrom, Bool.and_eq_true, decide_eq_true_eq] at hw
    have hne : k ≠ j := by omega
    simp only [Memory.lookup, hne, if_false]
    exact lookup_below rest (j + 1) k hw.2 (by omega)

/-- Reading a memory of canonical form after a write. -/
theorem lookup_insert_wf : ∀ (m : Memory) (lo k k' : Nat) (v : Byte), Memory.wfFrom lo m = true →
    (m.insert k v).lookup k' = if k' = k then v else m.lookup k'
  | [], _, k, k', v, _ => by
    by_cases hv : v = Memory.unlisted <;> by_cases hk : k' = k <;>
      simp [Memory.insert, Memory.lookup, hv, hk]
  | (j, w) :: rest, lo, k, k', v, hw => by
    simp only [Memory.wfFrom, Bool.and_eq_true, decide_eq_true_eq] at hw
    have ih := lookup_insert_wf rest (j + 1) k k' v hw.2
    have hb := lookup_below rest (j + 1) k hw.2
    by_cases hlt : k < j
    · have hb' := hb (by omega)
      by_cases hv : v = Memory.unlisted <;> by_cases hk : k' = k
      · have hkj : k ≠ j := by omega
        simp [Memory.insert, Memory.lookup, hlt, hv, hk, hkj, hb']
      · simp [Memory.insert, Memory.lookup, hlt, hv, hk]
      · simp [Memory.insert, Memory.lookup, hlt, hv, hk]
      · simp [Memory.insert, Memory.lookup, hlt, hv, hk]
    · by_cases hkj : k = j
      · subst hkj
        by_cases hv : v = Memory.unlisted <;> by_cases hk : k' = k
        · have hb' := hb (by omega)
          simp [Memory.insert, hv, hk, hb']
        · simp [Memory.insert, Memory.lookup, hv, hk]
        · simp [Memory.insert, Memory.lookup, hv, hk]
        · simp [Memory.insert, Memory.lookup, hv, hk]
      · by_cases hk : k' = j
        · have hjk : j ≠ k := fun h => hkj h.symm
          simp [Memory.insert, Memory.lookup, hlt, hkj, hk, hjk]
        · simp [Memory.insert, Memory.lookup, hlt, hkj, hk, ih]

/-- A write keeps the canonical form. -/
theorem wfFrom_insert : ∀ (m : Memory) (lo k : Nat) (v : Byte), Memory.wfFrom lo m = true → lo ≤ k →
    k < Config.memSize → Memory.wfFrom lo (m.insert k v) = true
  | [], lo, k, v, _, hlo, hk => by
    by_cases hv : v = Memory.unlisted <;> simp [Memory.insert, Memory.wfFrom, hv, hlo]
    exact hk
  | (j, w) :: rest, lo, k, v, hw, hlo, hk => by
    simp only [Memory.wfFrom, Bool.and_eq_true, decide_eq_true_eq] at hw
    obtain ⟨⟨⟨h1, h2⟩, h3⟩, h4⟩ := hw
    by_cases hlt : k < j
    · by_cases hv : v = Memory.unlisted
      · simp [Memory.insert, Memory.wfFrom, hlt, hv, h1, h2, h3, h4]
      · have : k + 1 ≤ j := hlt
        simp [Memory.insert, Memory.wfFrom, hlt, hv, hlo, hk, this, h2, h3, h4]
    · by_cases hkj : k = j
      · subst hkj
        by_cases hv : v = Memory.unlisted
        · simpa [Memory.insert, hv] using wfFrom_mono rest (k + 1) lo (by omega) h4
        · simp [Memory.insert, Memory.wfFrom, hv, hlo, hk, h4]
      · have ih := wfFrom_insert rest (j + 1) k v h4 (by omega) hk
        simp [Memory.insert, Memory.wfFrom, hlt, hkj, h1, h2, h3, ih]

/-- Reading after a write when the address differs needs no canonical form. -/
theorem lookup_insert_ne : ∀ (m : Memory) (k k' : Nat) (v : Byte), k' ≠ k →
    (m.insert k v).lookup k' = m.lookup k'
  | [], k, k', v, h => by
    by_cases hv : v = Memory.unlisted <;> simp [Memory.insert, Memory.lookup, hv, h]
  | (j, w) :: rest, k, k', v, h => by
    have ih := lookup_insert_ne rest k k' v h
    by_cases hlt : k < j
    · by_cases hv : v = Memory.unlisted <;> simp [Memory.insert, Memory.lookup, hlt, hv, h]
    · by_cases hkj : k = j
      · subst hkj
        by_cases hv : v = Memory.unlisted <;> simp [Memory.insert, Memory.lookup, hv, h]
      · by_cases hk : k' = j <;> simp [Memory.insert, Memory.lookup, hlt, hkj, hk, ih]

/-- `memWrite` keeps the canonical form. -/
theorem memWrite_wf (s : State) (x v : Byte) (h : s.mem.wf = true) :
    (s.memWrite x v).mem.wf = true :=
  wfFrom_insert s.mem 0 x.toNat v h (Nat.zero_le _) x.isLt

/-- The memory of the reset state has the canonical form. -/
theorem reset_mem_wf : State.reset.mem.wf = true := rfl

/-- A write is read back at its address, and every other address reads as before. -/
theorem memRead_memWrite (s : State) (x v y : Byte) (h : s.mem.wf = true) :
    (s.memWrite x v).memRead y = if y = x then v else s.memRead y := by
  have := lookup_insert_wf s.mem 0 x.toNat y.toNat v h
  simpa [State.memRead, State.memWrite, BitVec.toNat_inj] using this

/-- Every other address reads as before. -/
theorem memRead_memWrite_ne (s : State) (x v y : Byte) (h : y ≠ x) :
    (s.memWrite x v).memRead y = s.memRead y :=
  lookup_insert_ne s.mem x.toNat y.toNat v fun e => h (BitVec.eq_of_toNat_eq e)

end Sys2Proof.Machine
end

