-- ==== Sys2Proof/Laws/Operands.lean ====
section
/-! SUPPORT. What each shared operation does, said once: the class actions and the two fetch forms. -/

namespace Sys2Proof.Machine

/-! ### The pointer -/

@[simp] theorem advance_ipByte (s : State) (n : Nat) :
    (s.advance n).ipByte = s.ipByte + BitVec.ofNat 8 n := by
  apply BitVec.eq_of_toNat_eq
  simp [State.ipByte]

theorem zext9_toNat (v : Byte) : (zext9 v).toNat = v.toNat := by
  have := v.isLt
  simp only [zext9, BitVec.toNat_setWidth]
  omega

/-- A jump target is always within memory bounds (10 R15). -/
theorem zext9_toNat_le (v : Byte) : (zext9 v).toNat ≤ 255 := by
  have := zext9_toNat v
  have := v.isLt
  omega

theorem outOfMemory_eq_false_iff (s : State) : s.outOfMemory = false ↔ s.ip.toNat ≤ 255 := by
  simp [State.outOfMemory]

theorem advance_one_outOfMemory (s : State) (h : s.ip.toNat ≤ 255) :
    (s.advance 1).outOfMemory = decide (s.ip.toNat = 255) := by
  have h1 : (s.ip + BitVec.ofNat 9 1).toNat = s.ip.toNat + 1 := by
    rw [BitVec.toNat_add]
    simp
    omega
  simp only [State.outOfMemory, advance_ip, h1]
  by_cases h2 : s.ip.toNat = 255 <;> simp [h2]
  omega

/-! ### The class actions -/

section
variable (fn : AluFn) (cin wb : Bool) (ra rb : Reg) (x y : Byte) (s : State)

@[simp] theorem aluAction_readReg (r : Reg) : (aluAction fn cin wb ra y s).readReg r =
    if wb = true ∧ ra = r then (aluCore fn (s.readReg ra) y cin).res else s.readReg r := by
  cases wb <;> simp [aluAction]
@[simp] theorem aluAction_flags :
    (aluAction fn cin wb ra y s).flags = (aluCore fn (s.readReg ra) y cin).flags := rfl
@[simp] theorem aluAction_ip : (aluAction fn cin wb ra y s).ip = s.ip := by
  cases wb <;> simp [aluAction]
@[simp] theorem aluAction_halted : (aluAction fn cin wb ra y s).halted = s.halted := by
  cases wb <;> simp [aluAction]
@[simp] theorem aluAction_fault : (aluAction fn cin wb ra y s).fault = s.fault := by
  cases wb <;> simp [aluAction]
@[simp] theorem aluAction_mem : (aluAction fn cin wb ra y s).mem = s.mem := by
  cases wb <;> simp [aluAction]

@[simp] theorem movAction_readReg (r : Reg) :
    (movAction ra rb s).readReg r = if ra = r then s.readReg rb else s.readReg r := by
  simp [movAction]
@[simp] theorem movAction_flags : (movAction ra rb s).flags = s.flags := by simp [movAction]
@[simp] theorem movAction_ip : (movAction ra rb s).ip = s.ip := by simp [movAction]
@[simp] theorem movAction_halted : (movAction ra rb s).halted = s.halted := by simp [movAction]
@[simp] theorem movAction_fault : (movAction ra rb s).fault = s.fault := by simp [movAction]
@[simp] theorem movAction_mem : (movAction ra rb s).mem = s.mem := by simp [movAction]

@[simp] theorem mviAction_readReg (r : Reg) :
    (mviAction ra x s).readReg r = if ra = r then x else s.readReg r := by simp [mviAction]
@[simp] theorem mviAction_flags : (mviAction ra x s).flags = s.flags := by simp [mviAction]
@[simp] theorem mviAction_ip : (mviAction ra x s).ip = s.ip := by simp [mviAction]
@[simp] theorem mviAction_halted : (mviAction ra x s).halted = s.halted := by simp [mviAction]
@[simp] theorem mviAction_fault : (mviAction ra x s).fault = s.fault := by simp [mviAction]
@[simp] theorem mviAction_mem : (mviAction ra x s).mem = s.mem := by simp [mviAction]

@[simp] theorem loadAction_readReg (r : Reg) :
    (loadAction ra x s).readReg r = if ra = r then s.memRead x else s.readReg r := by
  simp [loadAction]
@[simp] theorem loadAction_flags : (loadAction ra x s).flags = s.flags := by simp [loadAction]
@[simp] theorem loadAction_ip : (loadAction ra x s).ip = s.ip := by simp [loadAction]
@[simp] theorem loadAction_halted : (loadAction ra x s).halted = s.halted := by simp [loadAction]
@[simp] theorem loadAction_fault : (loadAction ra x s).fault = s.fault := by simp [loadAction]
@[simp] theorem loadAction_mem : (loadAction ra x s).mem = s.mem := by simp [loadAction]

@[simp] theorem storeAction_readReg (r : Reg) : (storeAction ra x s).readReg r = s.readReg r := by
  simp [storeAction]
@[simp] theorem storeAction_flags : (storeAction ra x s).flags = s.flags := rfl
@[simp] theorem storeAction_ip : (storeAction ra x s).ip = s.ip := rfl
@[simp] theorem storeAction_halted : (storeAction ra x s).halted = s.halted := rfl
@[simp] theorem storeAction_fault : (storeAction ra x s).fault = s.fault := rfl

/-- A store writes the register to its address and leaves every other cell alone. -/
theorem storeAction_memRead (z : Byte) (h : s.mem.wf = true) :
    (storeAction ra x s).memRead z = if z = x then s.readReg ra else s.memRead z :=
  memRead_memWrite s x (s.readReg ra) z h

@[simp] theorem jumpAction_readReg (r : Reg) : (jumpAction x s).readReg r = s.readReg r := by
  simp [jumpAction]
@[simp] theorem jumpAction_flags : (jumpAction x s).flags = s.flags := rfl
@[simp] theorem jumpAction_ip : (jumpAction x s).ip = zext9 x := rfl
@[simp] theorem jumpAction_halted : (jumpAction x s).halted = s.halted := rfl
@[simp] theorem jumpAction_fault : (jumpAction x s).fault = s.fault := rfl
@[simp] theorem jumpAction_mem : (jumpAction x s).mem = s.mem := rfl

@[simp] theorem callAction_readReg (r : Reg) : (callAction x s).readReg r = s.readReg r := by
  simp [callAction]
@[simp] theorem callAction_flags : (callAction x s).flags = s.flags := rfl
@[simp] theorem callAction_ip : (callAction x s).ip = zext9 x := rfl
@[simp] theorem callAction_halted : (callAction x s).halted = s.halted := rfl
@[simp] theorem callAction_fault : (callAction x s).fault = s.fault := rfl

/-- CALL writes the low byte of the pointer to the return slot and leaves every other cell alone. -/
theorem callAction_memRead (z : Byte) (h : s.mem.wf = true) :
    (callAction x s).memRead z = if z = Config.retSlot then s.ipByte else s.memRead z :=
  memRead_memWrite s Config.retSlot s.ipByte z h

@[simp] theorem retAction_readReg (r : Reg) : (retAction s).readReg r = s.readReg r := by
  simp [retAction]
@[simp] theorem retAction_flags : (retAction s).flags = s.flags := rfl
@[simp] theorem retAction_ip : (retAction s).ip = zext9 (s.memRead Config.retSlot) := rfl
@[simp] theorem retAction_halted : (retAction s).halted = s.halted := rfl
@[simp] theorem retAction_fault : (retAction s).fault = s.fault := rfl
@[simp] theorem retAction_mem : (retAction s).mem = s.mem := rfl

@[simp] theorem nopAction_eq : nopAction s = s := rfl
@[simp] theorem hltAction_eq : hltAction s = s.setHalted := rfl

end

/-- A cell reads the same in two states with the same memory. -/
theorem memRead_congr {s t : State} (h : t.mem = s.mem) (x : Byte) : t.memRead x = s.memRead x := by
  simp [State.memRead, h]

/-! ### The two fetch forms -/

/-- All that a one-byte instruction can do. -/
theorem oneByte_next {act : State → State} {s t : State} (h : oneByte act s = .next t) :
    t = act (s.advance 1) := by
  simpa [oneByte, eq_comm] using h

/-- All that a two-byte instruction can do: its action, or the operand fault. -/
theorem twoByte_next {act : State → State} {s t : State} (h : twoByte act s = .next t) :
    (s.advance 1).outOfMemory = true ∧ t = (s.advance 1).raise .operandFetch ∨
      (s.advance 1).outOfMemory = false ∧ t = act (s.advance 2) := by
  unfold twoByte at h
  split at h <;> simp_all

/-- All that a conditional jump can do. -/
theorem condJump_next {f : Flag} {x : Byte} {s t : State} (h : condJump f x s = .next t) :
    s.readFlag f = false ∧ t = s.advance 2 ∨
      s.readFlag f = true ∧ ((s.advance 1).outOfMemory = true ∧ t = (s.advance 1).raise .operandFetch ∨
        (s.advance 1).outOfMemory = false ∧ t = jumpAction x (s.advance 2)) := by
  unfold condJump at h
  split at h
  · exact .inr ⟨by assumption, twoByte_next h⟩
  · exact .inl ⟨by simp_all, by simpa [eq_comm] using h⟩

/-- A two-byte instruction whose operand lies in memory completes. -/
theorem twoByte_completes (act : State → State) (s : State) (h : s.ip.toNat + 2 ≤ 256) :
    twoByte act s = .next (act (s.advance 2)) := by
  have : (s.advance 1).outOfMemory = false := by
    rw [advance_one_outOfMemory s (by omega)]
    simp
    omega
  simp [twoByte, this]

/-- A two-byte instruction at the last cell takes the operand fault. -/
theorem twoByte_faults (act : State → State) (s : State) (h : s.ip.toNat = 255) :
    twoByte act s = .next ((s.advance 1).raise .operandFetch) := by
  have : (s.advance 1).outOfMemory = true := by
    rw [advance_one_outOfMemory s (by omega)]
    simp [h]
  simp [twoByte, this]

end Sys2Proof.Machine
end

