-- ==== Sys2Proof/Laws/PerInstr.lean ====
section
/-! SUPPORT. Statements about every instruction as syntax, one lemma per constructor. -/

namespace Sys2Proof.Laws.EncodedLength

/-- The entry of the default decode ROM at the instruction's opcode byte is bound, its mode gives the
instruction's length, and that many bytes are its encoding (30 R52). -/
def Statement (i : Instr) : Prop :=
  (∃ e, defaultRom i.opcode = some e ∧ e.desc.length = i.length) ∧ (encode i).length = i.length

theorem addB : Statement .addB := ⟨⟨_, rfl, rfl⟩, rfl⟩
theorem addC : Statement .addC := ⟨⟨_, rfl, rfl⟩, rfl⟩
theorem subB : Statement .subB := ⟨⟨_, rfl, rfl⟩, rfl⟩
theorem subC : Statement .subC := ⟨⟨_, rfl, rfl⟩, rfl⟩
theorem sbbB : Statement .sbbB := ⟨⟨_, rfl, rfl⟩, rfl⟩
theorem sbbC : Statement .sbbC := ⟨⟨_, rfl, rfl⟩, rfl⟩
theorem anaB : Statement .anaB := ⟨⟨_, rfl, rfl⟩, rfl⟩
theorem anaC : Statement .anaC := ⟨⟨_, rfl, rfl⟩, rfl⟩
theorem oraB : Statement .oraB := ⟨⟨_, rfl, rfl⟩, rfl⟩
theorem oraC : Statement .oraC := ⟨⟨_, rfl, rfl⟩, rfl⟩
theorem xraB : Statement .xraB := ⟨⟨_, rfl, rfl⟩, rfl⟩
theorem xraC : Statement .xraC := ⟨⟨_, rfl, rfl⟩, rfl⟩
theorem cmpB : Statement .cmpB := ⟨⟨_, rfl, rfl⟩, rfl⟩
theorem cmpC : Statement .cmpC := ⟨⟨_, rfl, rfl⟩, rfl⟩
theorem inrA : Statement .inrA := ⟨⟨_, rfl, rfl⟩, rfl⟩
theorem inrB : Statement .inrB := ⟨⟨_, rfl, rfl⟩, rfl⟩
theorem inrC : Statement .inrC := ⟨⟨_, rfl, rfl⟩, rfl⟩
theorem dcrA : Statement .dcrA := ⟨⟨_, rfl, rfl⟩, rfl⟩
theorem dcrB : Statement .dcrB := ⟨⟨_, rfl, rfl⟩, rfl⟩
theorem dcrC : Statement .dcrC := ⟨⟨_, rfl, rfl⟩, rfl⟩
theorem cma : Statement .cma := ⟨⟨_, rfl, rfl⟩, rfl⟩
theorem adi (x : Byte) : Statement (.adi x) := ⟨⟨_, rfl, rfl⟩, rfl⟩
theorem sui (x : Byte) : Statement (.sui x) := ⟨⟨_, rfl, rfl⟩, rfl⟩
theorem cpi (x : Byte) : Statement (.cpi x) := ⟨⟨_, rfl, rfl⟩, rfl⟩
theorem movAB : Statement .movAB := ⟨⟨_, rfl, rfl⟩, rfl⟩
theorem movAC : Statement .movAC := ⟨⟨_, rfl, rfl⟩, rfl⟩
theorem movBA : Statement .movBA := ⟨⟨_, rfl, rfl⟩, rfl⟩
theorem movBC : Statement .movBC := ⟨⟨_, rfl, rfl⟩, rfl⟩
theorem movCA : Statement .movCA := ⟨⟨_, rfl, rfl⟩, rfl⟩
theorem movCB : Statement .movCB := ⟨⟨_, rfl, rfl⟩, rfl⟩
theorem mviA (x : Byte) : Statement (.mviA x) := ⟨⟨_, rfl, rfl⟩, rfl⟩
theorem mviB (x : Byte) : Statement (.mviB x) := ⟨⟨_, rfl, rfl⟩, rfl⟩
theorem mviC (x : Byte) : Statement (.mviC x) := ⟨⟨_, rfl, rfl⟩, rfl⟩
theorem lda (x : Byte) : Statement (.lda x) := ⟨⟨_, rfl, rfl⟩, rfl⟩
theorem ldb (x : Byte) : Statement (.ldb x) := ⟨⟨_, rfl, rfl⟩, rfl⟩
theorem ldc (x : Byte) : Statement (.ldc x) := ⟨⟨_, rfl, rfl⟩, rfl⟩
theorem sta (x : Byte) : Statement (.sta x) := ⟨⟨_, rfl, rfl⟩, rfl⟩
theorem stb (x : Byte) : Statement (.stb x) := ⟨⟨_, rfl, rfl⟩, rfl⟩
theorem stc (x : Byte) : Statement (.stc x) := ⟨⟨_, rfl, rfl⟩, rfl⟩
theorem ldaC : Statement .ldaC := ⟨⟨_, rfl, rfl⟩, rfl⟩
theorem staC : Statement .staC := ⟨⟨_, rfl, rfl⟩, rfl⟩
theorem jmp (x : Byte) : Statement (.jmp x) := ⟨⟨_, rfl, rfl⟩, rfl⟩
theorem js (x : Byte) : Statement (.js x) := ⟨⟨_, rfl, rfl⟩, rfl⟩
theorem jz (x : Byte) : Statement (.jz x) := ⟨⟨_, rfl, rfl⟩, rfl⟩
theorem jc (x : Byte) : Statement (.jc x) := ⟨⟨_, rfl, rfl⟩, rfl⟩
theorem jv (x : Byte) : Statement (.jv x) := ⟨⟨_, rfl, rfl⟩, rfl⟩
theorem call (x : Byte) : Statement (.call x) := ⟨⟨_, rfl, rfl⟩, rfl⟩
theorem ret : Statement .ret := ⟨⟨_, rfl, rfl⟩, rfl⟩
theorem nop : Statement .nop := ⟨⟨_, rfl, rfl⟩, rfl⟩
theorem hlt : Statement .hlt := ⟨⟨_, rfl, rfl⟩, rfl⟩

end Sys2Proof.Laws.EncodedLength
end

