-- ==== Sys2Proof/Laws/Step.lean ====
section
/-! SUPPORT. What fetch, `exec` and `step` can do, said once. -/

namespace Sys2Proof.Machine

/-! ### Decoding -/

/-- On two bytes or more the decoder never runs out of bytes, and the instruction is the one that the
first two bytes select. -/
theorem decode_two (op x : Byte) (rest : List Byte) :
    (decode (op :: x :: rest)).map Prod.fst = decodeOp op x := by
  simp only [decode, List.headD_cons]
  cases decodeOp op x with
  | error e => rfl
  | ok i => cases h : i.operand <;> simp [h, Except.map]

/-- The instruction at the pointer is the one that the opcode byte and the byte after it select. -/
theorem fetchInstr_eq (s : State) : fetchInstr s = decodeOp (fetchOpcode s) (fetchNextByte s) :=
  decode_two _ _ []

/-- An instruction that the decoder answers has the opcode byte that selected it. -/
theorem decodeOp_opcode {op x : Byte} {i : Instr} (h : decodeOp op x = .ok i) : i.opcode = op := by
  unfold decodeOp at h
  split at h <;> simp at h <;> subst h <;> rfl

/-- The only reason for which an opcode byte is rejected. -/
theorem decodeOp_error {op x : Byte} {e : DecodeError} (h : decodeOp op x = .error e) :
    e = .invalidOpcode op := by
  unfold decodeOp at h
  split at h <;> simp at h
  exact h.symm

/-! ### The step -/

/-- A state is terminal exactly when it is not running. -/
theorem terminal_eq_false_iff (s : State) : s.terminal = false ↔ Running s := by
  simp [State.terminal, Running, State.outOfMemory, and_assoc]

/-- A terminal state calls for a result that is not Continuing, and conversely. -/
theorem status_continuing_iff (s : State) : status s = .continuing ↔ Running s := by
  unfold status Running
  cases s.fault <;> cases s.halted <;> simp [State.outOfMemory]

/-- Every instruction answers a next state. -/
theorem exec_answers (i : Instr) (s : State) : ∃ t, exec i s = .next t := by
  have two : ∀ act : State → State, ∃ t, twoByte act s = .next t := by
    intro act
    unfold twoByte
    split <;> exact ⟨_, rfl⟩
  have cond : ∀ f x, ∃ t, condJump f x s = .next t := by
    intro f x
    unfold condJump
    split
    · exact two _
    · exact ⟨_, rfl⟩
  cases i <;> first | exact ⟨_, rfl⟩ | exact two _ | exact cond _ _

/-- All that a step can do. -/
theorem step_cases {s t : State} (h : step s = .next t) :
    s.terminal = true ∧ t = s ∨
      s.terminal = false ∧ fetchInstr s = .error (.invalidOpcode (fetchOpcode s)) ∧
        t = takeInvalidOpcode s ∨
      s.terminal = false ∧ ∃ i, fetchInstr s = .ok i ∧ i.opcode = fetchOpcode s ∧ exec i s = .next t := by
  unfold step at h
  cases hterm : s.terminal with
  | true => exact .inl ⟨rfl, by simpa [hterm, eq_comm] using h⟩
  | false =>
    cases hf : fetchInstr s with
    | error e =>
      have he := decodeOp_error (fetchInstr_eq s ▸ hf)
      exact .inr (.inl ⟨rfl, by rw [he], by simpa [hterm, hf, eq_comm] using h⟩)
    | ok i =>
      have ho := decodeOp_opcode (fetchInstr_eq s ▸ hf)
      exact .inr (.inr ⟨rfl, i, rfl, ho, by simpa [hterm, hf] using h⟩)

/-- A step in a terminal state. -/
theorem step_terminal {s : State} (h : s.terminal = true) : step s = .next s := by simp [step, h]

/-- A step at an unbound byte. -/
theorem step_error {s : State} {e : DecodeError} (h : s.terminal = false) (hf : fetchInstr s = .error e) :
    step s = .next (takeInvalidOpcode s) := by simp [step, h, hf]

/-- A step at an instruction. -/
theorem step_ok {s : State} {i : Instr} (h : s.terminal = false) (hf : fetchInstr s = .ok i) :
    step s = exec i s := by simp [step, h, hf]

/-! ### `withFetchWord` -/

/-- The state with a word placed runs: nothing keeps the next step from fetching. -/
theorem withFetchWord_terminal (s : State) (nbits w : Nat) :
    (s.withFetchWord nbits w).terminal = false := by
  have h : (placeIp s).toNat ≤ 254 := by
    unfold placeIp
    split <;> simp_all
  rw [terminal_eq_false_iff]
  exact ⟨rfl, rfl, Nat.le_trans h (by decide)⟩

end Sys2Proof.Machine
end

