-- ==== Sys2Proof/Tests/Slice0.lean ====
section
/-! SUPPORT. Tests of the model on single steps, and the witnesses that the hypotheses of the obligations
can be met. Expected values come from 95_test_vectors.md (the vector tables, which that file marks as
derived from the spec's rules, and its section 1, the source's own examples) or from the rule named beside
the test. -/

namespace Sys2Proof.Tests

open Sys2Proof Sys2Proof.Machine

/-! ### Decoding

One word for every constructor, written out bit by bit from the encoding column of opcode_table.json: the
operand byte first, then the opcode byte, which stands in bits 7 to 0. -/

theorem test_decode_addB : decodeTableWord 8 0b00000010 = some .addB := by decide
theorem test_decode_addC : decodeTableWord 8 0b00000011 = some .addC := by decide
theorem test_decode_subB : decodeTableWord 8 0b00000100 = some .subB := by decide
theorem test_decode_subC : decodeTableWord 8 0b00000101 = some .subC := by decide
theorem test_decode_sbbB : decodeTableWord 8 0b00000110 = some .sbbB := by decide
theorem test_decode_sbbC : decodeTableWord 8 0b00000111 = some .sbbC := by decide
theorem test_decode_anaB : decodeTableWord 8 0b00001000 = some .anaB := by decide
theorem test_decode_anaC : decodeTableWord 8 0b00001001 = some .anaC := by decide
theorem test_decode_oraB : decodeTableWord 8 0b00001010 = some .oraB := by decide
theorem test_decode_oraC : decodeTableWord 8 0b00001011 = some .oraC := by decide
theorem test_decode_xraB : decodeTableWord 8 0b00001100 = some .xraB := by decide
theorem test_decode_xraC : decodeTableWord 8 0b00001101 = some .xraC := by decide
theorem test_decode_cmpB : decodeTableWord 8 0b00001110 = some .cmpB := by decide
theorem test_decode_cmpC : decodeTableWord 8 0b00001111 = some .cmpC := by decide
theorem test_decode_inrA : decodeTableWord 8 0b00010000 = some .inrA := by decide
theorem test_decode_inrB : decodeTableWord 8 0b00010001 = some .inrB := by decide
theorem test_decode_inrC : decodeTableWord 8 0b00010010 = some .inrC := by decide
theorem test_decode_dcrA : decodeTableWord 8 0b00010011 = some .dcrA := by decide
theorem test_decode_dcrB : decodeTableWord 8 0b00010100 = some .dcrB := by decide
theorem test_decode_dcrC : decodeTableWord 8 0b00010101 = some .dcrC := by decide
theorem test_decode_cma : decodeTableWord 8 0b00010110 = some .cma := by decide
theorem test_decode_adi : decodeTableWord 16 0b10100101_00010111 = some (.adi 0xA5#8) := by decide
theorem test_decode_sui : decodeTableWord 16 0b11111001_00011000 = some (.sui 0xF9#8) := by decide
theorem test_decode_cpi : decodeTableWord 16 0b00011110_00011001 = some (.cpi 0x1E#8) := by decide
theorem test_decode_movAB : decodeTableWord 8 0b00011010 = some .movAB := by decide
theorem test_decode_movAC : decodeTableWord 8 0b00011011 = some .movAC := by decide
theorem test_decode_movBA : decodeTableWord 8 0b00011100 = some .movBA := by decide
theorem test_decode_movBC : decodeTableWord 8 0b00011101 = some .movBC := by decide
theorem test_decode_movCA : decodeTableWord 8 0b00011110 = some .movCA := by decide
theorem test_decode_movCB : decodeTableWord 8 0b00011111 = some .movCB := by decide
theorem test_decode_mviA : decodeTableWord 16 0b00100001_00100000 = some (.mviA 0x21#8) := by decide
theorem test_decode_mviB : decodeTableWord 16 0b01000110_00100001 = some (.mviB 0x46#8) := by decide
theorem test_decode_mviC : decodeTableWord 16 0b01101011_00100010 = some (.mviC 0x6B#8) := by decide
theorem test_decode_lda : decodeTableWord 16 0b10010000_00100011 = some (.lda 0x90#8) := by decide
theorem test_decode_ldb : decodeTableWord 16 0b10110101_00100100 = some (.ldb 0xB5#8) := by decide
theorem test_decode_ldc : decodeTableWord 16 0b11011010_00100101 = some (.ldc 0xDA#8) := by decide
theorem test_decode_sta : decodeTableWord 16 0b11111111_00100110 = some (.sta 0xFF#8) := by decide
theorem test_decode_stb : decodeTableWord 16 0b00100100_00100111 = some (.stb 0x24#8) := by decide
theorem test_decode_stc : decodeTableWord 16 0b01001001_00101000 = some (.stc 0x49#8) := by decide
theorem test_decode_ldaC : decodeTableWord 8 0b00101001 = some .ldaC := by decide
theorem test_decode_staC : decodeTableWord 8 0b00101010 = some .staC := by decide
theorem test_decode_jmp : decodeTableWord 16 0b10111000_00101011 = some (.jmp 0xB8#8) := by decide
theorem test_decode_js : decodeTableWord 16 0b11011101_00101100 = some (.js 0xDD#8) := by decide
theorem test_decode_jz : decodeTableWord 16 0b00000010_00101101 = some (.jz 0x02#8) := by decide
theorem test_decode_jc : decodeTableWord 16 0b00100111_00101110 = some (.jc 0x27#8) := by decide
theorem test_decode_jv : decodeTableWord 16 0b01001100_00101111 = some (.jv 0x4C#8) := by decide
theorem test_decode_call : decodeTableWord 16 0b01110001_00110000 = some (.call 0x71#8) := by decide
theorem test_decode_ret : decodeTableWord 8 0b00110001 = some .ret := by decide
theorem test_decode_nop : decodeTableWord 8 0b00111110 = some .nop := by decide
theorem test_decode_hlt : decodeTableWord 8 0b00111111 = some .hlt := by decide

/-- Bits above `nbits` are zero; a byte after a one-byte instruction has no influence. -/
theorem test_decode_above_nbits : decodeTableWord 8 0x4120 = some (.mviA 0x00#8) ∧
    decodeTableWord 16 0x4102 = some .addB := by decide

/-- The unbound boundaries of the map (95 section 2.7). -/
theorem test_decode_unbound : ∀ op ∈ [0x00, 0x01, 0x32, 0x3D, 0x40, 0x7F, 0x80, 0xFF],
    decodeTableWord 8 op = none := by decide

/-- An empty sequence and a sequence that ends before the operand byte are rejected by name. -/
theorem test_decode_short : decode [] = .error .noBytes ∧
    decode [0x20#8] = .error (.missingOperand 0x20#8) := ⟨rfl, rfl⟩

/-- The bytes of the source's scenario S1 (95 S1). -/
theorem test_encode_scenario : [Instr.mviA 0x05#8, .mviB 0x03#8, .addB, .hlt].flatMap encode =
    [0x20#8, 0x05#8, 0x21#8, 0x03#8, 0x02#8, 0x3F#8] := by decide

/-- Worked packings of the control word (95 section 2.8). -/
theorem test_ctrl_sbb_b : entryCtrl (defaultRom 0x06#8) = 0b1000000001010001#16 := by decide
theorem test_ctrl_cpi : entryCtrl (defaultRom 0x19#8) = 0b1010000001100011#16 := by decide
theorem test_ctrl_mov_b_a : entryCtrl (defaultRom 0x1C#8) = 0b1000001000000100#16 := by decide
theorem test_ctrl_jv : entryCtrl (defaultRom 0x2F#8) = 0b1100110011000000#16 := by decide

/-! ### Well-formedness

`Instr.wf` has no ill-formed term: an operand byte has no illegal value (30 R60). The other checks each
refuse a term that breaks them. -/

theorem test_wf_program_full : programFits (List.replicate 256 0x3E#8) = true := by
  rw [programFits, List.length_replicate]; decide
theorem test_wf_program_too_long : programFits (List.replicate 257 0x3E#8) = false := by
  rw [programFits, List.length_replicate]; decide

/-- `rom` with the entry of `op` replaced. -/
def patch (op : Byte) (e : Option RomEntry) : Rom := fun x => if x = op then e else defaultRom x

set_option maxRecDepth 20000 in
theorem test_wf_rom_default : defaultRom.wf = true := by decide

/-- Another ROM that meets 30 R57: `CALL` and `RET` the other way round (decision D5 is the model's). -/
def swapCallRet : Rom := fun x =>
  if x = 0x30#8 then defaultRom 0x31#8 else if x = 0x31#8 then defaultRom 0x30#8 else defaultRom x

set_option maxRecDepth 20000 in
theorem test_wf_rom_other : swapCallRet.wf = true := by decide

/-- (a): a bound byte where the map has none. -/
theorem test_wf_rom_bound_zero : (patch 0x00#8 (some ⟨"BRK", .nop⟩)).wfUnbound = false := by decide

/-- (b): a jump in the range of the moves. -/
theorem test_wf_rom_class : (patch 0x1A#8 (some ⟨"MOV A,B", .jmp⟩)).wfClasses = false := by decide

/-- (b): two `CALL` and no `RET`. -/
theorem test_wf_rom_no_ret : (patch 0x31#8 (some ⟨"CALL2", .call⟩)).wfClasses = false := by decide

/-- (c): `ADD B` that adds C. -/
theorem test_wf_rom_add_b :
    (patch 0x02#8 (some ⟨"ADD B", .alu .none .add false true .A (some .C)⟩)).wfSourceBytes = false := by
  decide

/-- (d): no `CMA`. -/
theorem test_wf_rom_no_cma :
    (patch 0x16#8 (some ⟨"NEG", .alu .none .sub false true .A none⟩)).wfNamed = false := by decide

/-- (d): an entry called `MOV A,B` that is no move from B to A. -/
theorem test_wf_rom_mov_a_b : (patch 0x1A#8 (some ⟨"MOV A,B", .mvi .C⟩)).wfNamed = false ∧
    (patch 0x1A#8 (some ⟨"MOV A,B", .mov .C .C⟩)).wfNamed = false := by decide

set_option maxRecDepth 20000 in
/-- (f): one mnemonic twice. -/
theorem test_wf_rom_twice :
    (patch 0x03#8 (some ⟨"ADD B", .alu .none .add false true .A (some .C)⟩)).wfMnemonics = false := by
  decide

/-- The memory form refuses a falling list, a double address, a listed zero and an address outside. -/
theorem test_wf_memory : Memory.wf [(3, 0x01#8), (255, 0x80#8)] = true ∧
    Memory.wf [(5, 0x01#8), (3, 0x01#8)] = false ∧ Memory.wf [(3, 0x01#8), (3, 0x02#8)] = false ∧
    Memory.wf [(3, 0x00#8)] = false ∧ Memory.wf [(256, 0x01#8)] = false := by decide

/-! ### Single steps

Each instruction has one or two vectors of 95 sections 2.1 to 2.6. -/

/-- A state with registers `a b c`, pointer, flags (in the order Z S V C) and cells. -/
def mk (a b c : Byte) (ip : Ptr) (f : Flags) (cells : List (Byte × Byte)) : State :=
  cells.foldl (fun s p => s.memWrite p.1 p.2)
    { State.reset with a := a, b := b, c := c, ip := ip, flags := f }

/-- What is looked at after a step: the result, the registers, `IP`, the flags and one cell. -/
structure Seen where
  result : StepResult
  a : Byte
  b : Byte
  c : Byte
  ip : Ptr
  flags : Flags
  cell : Byte
  deriving DecidableEq, Repr

/-- What a step from `s` gives, with the cell `x`. -/
def outcome (s : State) (x : Byte) : Option Seen :=
  match step s with
  | .next t => some ⟨(reportOf s t).result, t.a, t.b, t.c, t.ip, t.flags, t.memRead x⟩
  | .fault _ => none
  | .refused _ => none

theorem test_addB_1 :
    outcome (mk 0xFF#8 0x01#8 0xEE#8 0x010#9 ⟨true, true, true, true⟩
      [(0x10#8, 0x02#8)]) 0xFF#8 =
      some ⟨.continuing, 0x00#8, 0x01#8, 0xEE#8, 0x011#9, ⟨true, false, false, true⟩, 0x00#8⟩ := by
  decide

theorem test_addB_2 :
    outcome (mk 0x7F#8 0x01#8 0xEE#8 0x010#9 ⟨true, true, true, true⟩
      [(0x10#8, 0x02#8)]) 0xFF#8 =
      some ⟨.continuing, 0x80#8, 0x01#8, 0xEE#8, 0x011#9, ⟨false, true, true, false⟩, 0x00#8⟩ := by
  decide

theorem test_addC_1 :
    outcome (mk 0xFF#8 0xEE#8 0x01#8 0x010#9 ⟨true, true, true, true⟩
      [(0x10#8, 0x03#8)]) 0xFF#8 =
      some ⟨.continuing, 0x00#8, 0xEE#8, 0x01#8, 0x011#9, ⟨true, false, false, true⟩, 0x00#8⟩ := by
  decide

theorem test_addC_2 :
    outcome (mk 0x7F#8 0xEE#8 0x01#8 0x010#9 ⟨true, true, true, true⟩
      [(0x10#8, 0x03#8)]) 0xFF#8 =
      some ⟨.continuing, 0x80#8, 0xEE#8, 0x01#8, 0x011#9, ⟨false, true, true, false⟩, 0x00#8⟩ := by
  decide

theorem test_subB_1 :
    outcome (mk 0x07#8 0x07#8 0xEE#8 0x010#9 ⟨true, true, true, true⟩
      [(0x10#8, 0x04#8)]) 0xFF#8 =
      some ⟨.continuing, 0x00#8, 0x07#8, 0xEE#8, 0x011#9, ⟨true, false, false, true⟩, 0x00#8⟩ := by
  decide

theorem test_subB_2 :
    outcome (mk 0x00#8 0x80#8 0xEE#8 0x010#9 ⟨true, true, true, true⟩
      [(0x10#8, 0x04#8)]) 0xFF#8 =
      some ⟨.continuing, 0x80#8, 0x80#8, 0xEE#8, 0x011#9, ⟨false, true, true, false⟩, 0x00#8⟩ := by
  decide

theorem test_subC_1 :
    outcome (mk 0x07#8 0xEE#8 0x07#8 0x010#9 ⟨true, true, true, true⟩
      [(0x10#8, 0x05#8)]) 0xFF#8 =
      some ⟨.continuing, 0x00#8, 0xEE#8, 0x07#8, 0x011#9, ⟨true, false, false, true⟩, 0x00#8⟩ := by
  decide

theorem test_subC_2 :
    outcome (mk 0x00#8 0xEE#8 0x80#8 0x010#9 ⟨true, true, true, true⟩
      [(0x10#8, 0x05#8)]) 0xFF#8 =
      some ⟨.continuing, 0x80#8, 0xEE#8, 0x80#8, 0x011#9, ⟨false, true, true, false⟩, 0x00#8⟩ := by
  decide

theorem test_sbbB_1 :
    outcome (mk 0x03#8 0x03#8 0xEE#8 0x010#9 ⟨true, true, true, true⟩
      [(0x10#8, 0x06#8)]) 0xFF#8 =
      some ⟨.continuing, 0xFF#8, 0x03#8, 0xEE#8, 0x011#9, ⟨false, true, false, false⟩, 0x00#8⟩ := by
  decide

theorem test_sbbB_2 :
    outcome (mk 0x80#8 0x7F#8 0xEE#8 0x010#9 ⟨true, true, true, true⟩
      [(0x10#8, 0x06#8)]) 0xFF#8 =
      some ⟨.continuing, 0x00#8, 0x7F#8, 0xEE#8, 0x011#9, ⟨true, false, true, true⟩, 0x00#8⟩ := by
  decide

theorem test_sbbC_1 :
    outcome (mk 0x03#8 0xEE#8 0x03#8 0x010#9 ⟨true, true, true, true⟩
      [(0x10#8, 0x07#8)]) 0xFF#8 =
      some ⟨.continuing, 0xFF#8, 0xEE#8, 0x03#8, 0x011#9, ⟨false, true, false, false⟩, 0x00#8⟩ := by
  decide

theorem test_sbbC_2 :
    outcome (mk 0x80#8 0xEE#8 0x7F#8 0x010#9 ⟨true, true, true, true⟩
      [(0x10#8, 0x07#8)]) 0xFF#8 =
      some ⟨.continuing, 0x00#8, 0xEE#8, 0x7F#8, 0x011#9, ⟨true, false, true, true⟩, 0x00#8⟩ := by
  decide

theorem test_anaB_1 :
    outcome (mk 0x80#8 0x80#8 0xEE#8 0x010#9 ⟨true, true, true, true⟩
      [(0x10#8, 0x08#8)]) 0xFF#8 =
      some ⟨.continuing, 0x80#8, 0x80#8, 0xEE#8, 0x011#9, ⟨false, true, false, false⟩, 0x00#8⟩ := by
  decide

theorem test_anaB_2 :
    outcome (mk 0x0F#8 0xF0#8 0xEE#8 0x010#9 ⟨true, true, true, true⟩
      [(0x10#8, 0x08#8)]) 0xFF#8 =
      some ⟨.continuing, 0x00#8, 0xF0#8, 0xEE#8, 0x011#9, ⟨true, false, false, false⟩, 0x00#8⟩ := by
  decide

theorem test_anaC_1 :
    outcome (mk 0x80#8 0xEE#8 0x80#8 0x010#9 ⟨true, true, true, true⟩
      [(0x10#8, 0x09#8)]) 0xFF#8 =
      some ⟨.continuing, 0x80#8, 0xEE#8, 0x80#8, 0x011#9, ⟨false, true, false, false⟩, 0x00#8⟩ := by
  decide

theorem test_anaC_2 :
    outcome (mk 0x0F#8 0xEE#8 0xF0#8 0x010#9 ⟨true, true, true, true⟩
      [(0x10#8, 0x09#8)]) 0xFF#8 =
      some ⟨.continuing, 0x00#8, 0xEE#8, 0xF0#8, 0x011#9, ⟨true, false, false, false⟩, 0x00#8⟩ := by
  decide

theorem test_oraB_1 :
    outcome (mk 0xF0#8 0x0F#8 0xEE#8 0x010#9 ⟨true, true, true, true⟩
      [(0x10#8, 0x0A#8)]) 0xFF#8 =
      some ⟨.continuing, 0xFF#8, 0x0F#8, 0xEE#8, 0x011#9, ⟨false, true, false, false⟩, 0x00#8⟩ := by
  decide

theorem test_oraB_2 :
    outcome (mk 0x00#8 0x00#8 0xEE#8 0x010#9 ⟨true, true, true, true⟩
      [(0x10#8, 0x0A#8)]) 0xFF#8 =
      some ⟨.continuing, 0x00#8, 0x00#8, 0xEE#8, 0x011#9, ⟨true, false, false, false⟩, 0x00#8⟩ := by
  decide

theorem test_oraC_1 :
    outcome (mk 0xF0#8 0xEE#8 0x0F#8 0x010#9 ⟨true, true, true, true⟩
      [(0x10#8, 0x0B#8)]) 0xFF#8 =
      some ⟨.continuing, 0xFF#8, 0xEE#8, 0x0F#8, 0x011#9, ⟨false, true, false, false⟩, 0x00#8⟩ := by
  decide

theorem test_oraC_2 :
    outcome (mk 0x00#8 0xEE#8 0x00#8 0x010#9 ⟨true, true, true, true⟩
      [(0x10#8, 0x0B#8)]) 0xFF#8 =
      some ⟨.continuing, 0x00#8, 0xEE#8, 0x00#8, 0x011#9, ⟨true, false, false, false⟩, 0x00#8⟩ := by
  decide

theorem test_xraB_1 :
    outcome (mk 0xFF#8 0xFF#8 0xEE#8 0x010#9 ⟨true, true, true, true⟩
      [(0x10#8, 0x0C#8)]) 0xFF#8 =
      some ⟨.continuing, 0x00#8, 0xFF#8, 0xEE#8, 0x011#9, ⟨true, false, true, false⟩, 0x00#8⟩ := by
  decide

theorem test_xraB_2 :
    outcome (mk 0x55#8 0xAA#8 0xEE#8 0x010#9 ⟨true, true, true, true⟩
      [(0x10#8, 0x0C#8)]) 0xFF#8 =
      some ⟨.continuing, 0xFF#8, 0xAA#8, 0xEE#8, 0x011#9, ⟨false, true, false, false⟩, 0x00#8⟩ := by
  decide

theorem test_xraC_1 :
    outcome (mk 0xFF#8 0xEE#8 0xFF#8 0x010#9 ⟨true, true, true, true⟩
      [(0x10#8, 0x0D#8)]) 0xFF#8 =
      some ⟨.continuing, 0x00#8, 0xEE#8, 0xFF#8, 0x011#9, ⟨true, false, true, false⟩, 0x00#8⟩ := by
  decide

theorem test_xraC_2 :
    outcome (mk 0x55#8 0xEE#8 0xAA#8 0x010#9 ⟨true, true, true, true⟩
      [(0x10#8, 0x0D#8)]) 0xFF#8 =
      some ⟨.continuing, 0xFF#8, 0xEE#8, 0xAA#8, 0x011#9, ⟨false, true, false, false⟩, 0x00#8⟩ := by
  decide

theorem test_cmpB_1 :
    outcome (mk 0x00#8 0x00#8 0xEE#8 0x010#9 ⟨true, true, true, true⟩
      [(0x10#8, 0x0E#8)]) 0xFF#8 =
      some ⟨.continuing, 0x00#8, 0x00#8, 0xEE#8, 0x011#9, ⟨true, false, false, true⟩, 0x00#8⟩ := by
  decide

theorem test_cmpB_2 :
    outcome (mk 0x00#8 0x80#8 0xEE#8 0x010#9 ⟨true, true, true, true⟩
      [(0x10#8, 0x0E#8)]) 0xFF#8 =
      some ⟨.continuing, 0x00#8, 0x80#8, 0xEE#8, 0x011#9, ⟨false, true, true, false⟩, 0x00#8⟩ := by
  decide

theorem test_cmpC_1 :
    outcome (mk 0x00#8 0xEE#8 0x00#8 0x010#9 ⟨true, true, true, true⟩
      [(0x10#8, 0x0F#8)]) 0xFF#8 =
      some ⟨.continuing, 0x00#8, 0xEE#8, 0x00#8, 0x011#9, ⟨true, false, false, true⟩, 0x00#8⟩ := by
  decide

theorem test_cmpC_2 :
    outcome (mk 0x00#8 0xEE#8 0x80#8 0x010#9 ⟨true, true, true, true⟩
      [(0x10#8, 0x0F#8)]) 0xFF#8 =
      some ⟨.continuing, 0x00#8, 0xEE#8, 0x80#8, 0x011#9, ⟨false, true, true, false⟩, 0x00#8⟩ := by
  decide

theorem test_inrA_1 :
    outcome (mk 0xFF#8 0xEE#8 0xEE#8 0x010#9 ⟨true, true, true, true⟩
      [(0x10#8, 0x10#8)]) 0xFF#8 =
      some ⟨.continuing, 0x00#8, 0xEE#8, 0xEE#8, 0x011#9, ⟨true, false, false, true⟩, 0x00#8⟩ := by
  decide

theorem test_inrA_2 :
    outcome (mk 0x7F#8 0xEE#8 0xEE#8 0x010#9 ⟨true, true, true, true⟩
      [(0x10#8, 0x10#8)]) 0xFF#8 =
      some ⟨.continuing, 0x80#8, 0xEE#8, 0xEE#8, 0x011#9, ⟨false, true, true, false⟩, 0x00#8⟩ := by
  decide

theorem test_inrB_1 :
    outcome (mk 0xEE#8 0xFF#8 0xEE#8 0x010#9 ⟨true, true, true, true⟩
      [(0x10#8, 0x11#8)]) 0xFF#8 =
      some ⟨.continuing, 0xEE#8, 0x00#8, 0xEE#8, 0x011#9, ⟨true, false, false, true⟩, 0x00#8⟩ := by
  decide

theorem test_inrB_2 :
    outcome (mk 0xEE#8 0x7F#8 0xEE#8 0x010#9 ⟨true, true, true, true⟩
      [(0x10#8, 0x11#8)]) 0xFF#8 =
      some ⟨.continuing, 0xEE#8, 0x80#8, 0xEE#8, 0x011#9, ⟨false, true, true, false⟩, 0x00#8⟩ := by
  decide

theorem test_inrC_1 :
    outcome (mk 0xEE#8 0xEE#8 0xFF#8 0x010#9 ⟨true, true, true, true⟩
      [(0x10#8, 0x12#8)]) 0xFF#8 =
      some ⟨.continuing, 0xEE#8, 0xEE#8, 0x00#8, 0x011#9, ⟨true, false, false, true⟩, 0x00#8⟩ := by
  decide

theorem test_inrC_2 :
    outcome (mk 0xEE#8 0xEE#8 0x7F#8 0x010#9 ⟨true, true, true, true⟩
      [(0x10#8, 0x12#8)]) 0xFF#8 =
      some ⟨.continuing, 0xEE#8, 0xEE#8, 0x80#8, 0x011#9, ⟨false, true, true, false⟩, 0x00#8⟩ := by
  decide

theorem test_dcrA_1 :
    outcome (mk 0x00#8 0xEE#8 0xEE#8 0x010#9 ⟨true, true, true, true⟩
      [(0x10#8, 0x13#8)]) 0xFF#8 =
      some ⟨.continuing, 0xFF#8, 0xEE#8, 0xEE#8, 0x011#9, ⟨false, true, false, false⟩, 0x00#8⟩ := by
  decide

theorem test_dcrA_2 :
    outcome (mk 0x01#8 0xEE#8 0xEE#8 0x010#9 ⟨true, true, true, true⟩
      [(0x10#8, 0x13#8)]) 0xFF#8 =
      some ⟨.continuing, 0x00#8, 0xEE#8, 0xEE#8, 0x011#9, ⟨true, false, false, true⟩, 0x00#8⟩ := by
  decide

theorem test_dcrB_1 :
    outcome (mk 0xEE#8 0x00#8 0xEE#8 0x010#9 ⟨true, true, true, true⟩
      [(0x10#8, 0x14#8)]) 0xFF#8 =
      some ⟨.continuing, 0xEE#8, 0xFF#8, 0xEE#8, 0x011#9, ⟨false, true, false, false⟩, 0x00#8⟩ := by
  decide

theorem test_dcrB_2 :
    outcome (mk 0xEE#8 0x01#8 0xEE#8 0x010#9 ⟨true, true, true, true⟩
      [(0x10#8, 0x14#8)]) 0xFF#8 =
      some ⟨.continuing, 0xEE#8, 0x00#8, 0xEE#8, 0x011#9, ⟨true, false, false, true⟩, 0x00#8⟩ := by
  decide

theorem test_dcrC_1 :
    outcome (mk 0xEE#8 0xEE#8 0x00#8 0x010#9 ⟨true, true, true, true⟩
      [(0x10#8, 0x15#8)]) 0xFF#8 =
      some ⟨.continuing, 0xEE#8, 0xEE#8, 0xFF#8, 0x011#9, ⟨false, true, false, false⟩, 0x00#8⟩ := by
  decide

theorem test_dcrC_2 :
    outcome (mk 0xEE#8 0xEE#8 0x01#8 0x010#9 ⟨true, true, true, true⟩
      [(0x10#8, 0x15#8)]) 0xFF#8 =
      some ⟨.continuing, 0xEE#8, 0xEE#8, 0x00#8, 0x011#9, ⟨true, false, false, true⟩, 0x00#8⟩ := by
  decide

theorem test_cma_1 :
    outcome (mk 0x00#8 0xEE#8 0xEE#8 0x010#9 ⟨true, true, true, true⟩
      [(0x10#8, 0x16#8)]) 0xFF#8 =
      some ⟨.continuing, 0xFF#8, 0xEE#8, 0xEE#8, 0x011#9, ⟨false, true, true, false⟩, 0x00#8⟩ := by
  decide

theorem test_cma_2 :
    outcome (mk 0xFF#8 0xEE#8 0xEE#8 0x010#9 ⟨true, true, true, true⟩
      [(0x10#8, 0x16#8)]) 0xFF#8 =
      some ⟨.continuing, 0x00#8, 0xEE#8, 0xEE#8, 0x011#9, ⟨true, false, false, false⟩, 0x00#8⟩ := by
  decide

theorem test_adi_1 :
    outcome (mk 0xFF#8 0xEE#8 0xEE#8 0x010#9 ⟨true, true, true, true⟩
      [(0x10#8, 0x17#8), (0x11#8, 0x01#8)]) 0xFF#8 =
      some ⟨.continuing, 0x00#8, 0xEE#8, 0xEE#8, 0x012#9, ⟨true, false, false, true⟩, 0x00#8⟩ := by
  decide

theorem test_adi_2 :
    outcome (mk 0x7F#8 0xEE#8 0xEE#8 0x010#9 ⟨true, true, true, true⟩
      [(0x10#8, 0x17#8), (0x11#8, 0x01#8)]) 0xFF#8 =
      some ⟨.continuing, 0x80#8, 0xEE#8, 0xEE#8, 0x012#9, ⟨false, true, true, false⟩, 0x00#8⟩ := by
  decide

theorem test_sui_1 :
    outcome (mk 0x07#8 0xEE#8 0xEE#8 0x010#9 ⟨true, true, true, true⟩
      [(0x10#8, 0x18#8), (0x11#8, 0x07#8)]) 0xFF#8 =
      some ⟨.continuing, 0x00#8, 0xEE#8, 0xEE#8, 0x012#9, ⟨true, false, false, true⟩, 0x00#8⟩ := by
  decide

theorem test_sui_2 :
    outcome (mk 0x00#8 0xEE#8 0xEE#8 0x010#9 ⟨true, true, true, true⟩
      [(0x10#8, 0x18#8), (0x11#8, 0x80#8)]) 0xFF#8 =
      some ⟨.continuing, 0x80#8, 0xEE#8, 0xEE#8, 0x012#9, ⟨false, true, true, false⟩, 0x00#8⟩ := by
  decide

theorem test_cpi_1 :
    outcome (mk 0x00#8 0xEE#8 0xEE#8 0x010#9 ⟨true, true, true, true⟩
      [(0x10#8, 0x19#8), (0x11#8, 0x00#8)]) 0xFF#8 =
      some ⟨.continuing, 0x00#8, 0xEE#8, 0xEE#8, 0x012#9, ⟨true, false, false, true⟩, 0x00#8⟩ := by
  decide

theorem test_cpi_2 :
    outcome (mk 0x7F#8 0xEE#8 0xEE#8 0x010#9 ⟨true, true, true, true⟩
      [(0x10#8, 0x19#8), (0x11#8, 0xFF#8)]) 0xFF#8 =
      some ⟨.continuing, 0x7F#8, 0xEE#8, 0xEE#8, 0x012#9, ⟨false, true, true, false⟩, 0x00#8⟩ := by
  decide

theorem test_movAB_1 :
    outcome (mk 0x11#8 0x22#8 0x33#8 0x010#9 ⟨true, false, true, false⟩
      [(0x10#8, 0x1A#8)]) 0xFF#8 =
      some ⟨.continuing, 0x22#8, 0x22#8, 0x33#8, 0x011#9, ⟨true, false, true, false⟩, 0x00#8⟩ := by
  decide

theorem test_movAC_1 :
    outcome (mk 0x11#8 0x22#8 0x33#8 0x010#9 ⟨true, false, true, false⟩
      [(0x10#8, 0x1B#8)]) 0xFF#8 =
      some ⟨.continuing, 0x33#8, 0x22#8, 0x33#8, 0x011#9, ⟨true, false, true, false⟩, 0x00#8⟩ := by
  decide

theorem test_movBA_1 :
    outcome (mk 0x11#8 0x22#8 0x33#8 0x010#9 ⟨true, false, true, false⟩
      [(0x10#8, 0x1C#8)]) 0xFF#8 =
      some ⟨.continuing, 0x11#8, 0x11#8, 0x33#8, 0x011#9, ⟨true, false, true, false⟩, 0x00#8⟩ := by
  decide

theorem test_movBC_1 :
    outcome (mk 0x11#8 0x22#8 0x33#8 0x010#9 ⟨true, false, true, false⟩
      [(0x10#8, 0x1D#8)]) 0xFF#8 =
      some ⟨.continuing, 0x11#8, 0x33#8, 0x33#8, 0x011#9, ⟨true, false, true, false⟩, 0x00#8⟩ := by
  decide

theorem test_movCA_1 :
    outcome (mk 0x11#8 0x22#8 0x33#8 0x010#9 ⟨true, false, true, false⟩
      [(0x10#8, 0x1E#8)]) 0xFF#8 =
      some ⟨.continuing, 0x11#8, 0x22#8, 0x11#8, 0x011#9, ⟨true, false, true, false⟩, 0x00#8⟩ := by
  decide

theorem test_movCB_1 :
    outcome (mk 0x11#8 0x22#8 0x33#8 0x010#9 ⟨true, false, true, false⟩
      [(0x10#8, 0x1F#8)]) 0xFF#8 =
      some ⟨.continuing, 0x11#8, 0x22#8, 0x22#8, 0x011#9, ⟨true, false, true, false⟩, 0x00#8⟩ := by
  decide

theorem test_mviA_1 :
    outcome (mk 0x11#8 0x22#8 0x33#8 0x010#9 ⟨true, false, true, false⟩
      [(0x10#8, 0x20#8), (0x11#8, 0x00#8)]) 0xFF#8 =
      some ⟨.continuing, 0x00#8, 0x22#8, 0x33#8, 0x012#9, ⟨true, false, true, false⟩, 0x00#8⟩ := by
  decide

theorem test_mviA_2 :
    outcome (mk 0x11#8 0x22#8 0x33#8 0x010#9 ⟨true, false, true, false⟩
      [(0x10#8, 0x20#8), (0x11#8, 0x80#8)]) 0xFF#8 =
      some ⟨.continuing, 0x80#8, 0x22#8, 0x33#8, 0x012#9, ⟨true, false, true, false⟩, 0x00#8⟩ := by
  decide

theorem test_mviB_1 :
    outcome (mk 0x11#8 0x22#8 0x33#8 0x010#9 ⟨true, false, true, false⟩
      [(0x10#8, 0x21#8), (0x11#8, 0x00#8)]) 0xFF#8 =
      some ⟨.continuing, 0x11#8, 0x00#8, 0x33#8, 0x012#9, ⟨true, false, true, false⟩, 0x00#8⟩ := by
  decide

theorem test_mviB_2 :
    outcome (mk 0x11#8 0x22#8 0x33#8 0x010#9 ⟨true, false, true, false⟩
      [(0x10#8, 0x21#8), (0x11#8, 0x80#8)]) 0xFF#8 =
      some ⟨.continuing, 0x11#8, 0x80#8, 0x33#8, 0x012#9, ⟨true, false, true, false⟩, 0x00#8⟩ := by
  decide

theorem test_mviC_1 :
    outcome (mk 0x11#8 0x22#8 0x33#8 0x010#9 ⟨true, false, true, false⟩
      [(0x10#8, 0x22#8), (0x11#8, 0x00#8)]) 0xFF#8 =
      some ⟨.continuing, 0x11#8, 0x22#8, 0x00#8, 0x012#9, ⟨true, false, true, false⟩, 0x00#8⟩ := by
  decide

theorem test_mviC_2 :
    outcome (mk 0x11#8 0x22#8 0x33#8 0x010#9 ⟨true, false, true, false⟩
      [(0x10#8, 0x22#8), (0x11#8, 0x80#8)]) 0xFF#8 =
      some ⟨.continuing, 0x11#8, 0x22#8, 0x80#8, 0x012#9, ⟨true, false, true, false⟩, 0x00#8⟩ := by
  decide

theorem test_lda_1 :
    outcome (mk 0x11#8 0x22#8 0x80#8 0x010#9 ⟨false, true, false, true⟩
      [(0x80#8, 0x2A#8), (0x81#8, 0x07#8), (0xFF#8, 0x5C#8), (0x10#8, 0x23#8), (0x11#8, 0x80#8)]) 0xFF#8 =
      some ⟨.continuing, 0x2A#8, 0x22#8, 0x80#8, 0x012#9, ⟨false, true, false, true⟩, 0x5C#8⟩ := by
  decide

theorem test_lda_2 :
    outcome (mk 0x11#8 0x22#8 0x80#8 0x010#9 ⟨false, true, false, true⟩
      [(0x80#8, 0x2A#8), (0x81#8, 0x07#8), (0xFF#8, 0x5C#8), (0x10#8, 0x23#8), (0x11#8, 0x81#8)]) 0xFF#8 =
      some ⟨.continuing, 0x07#8, 0x22#8, 0x80#8, 0x012#9, ⟨false, true, false, true⟩, 0x5C#8⟩ := by
  decide

theorem test_ldb_1 :
    outcome (mk 0x11#8 0x22#8 0x80#8 0x010#9 ⟨false, true, false, true⟩
      [(0x80#8, 0x2A#8), (0x81#8, 0x07#8), (0xFF#8, 0x5C#8), (0x10#8, 0x24#8), (0x11#8, 0x80#8)]) 0xFF#8 =
      some ⟨.continuing, 0x11#8, 0x2A#8, 0x80#8, 0x012#9, ⟨false, true, false, true⟩, 0x5C#8⟩ := by
  decide

theorem test_ldb_2 :
    outcome (mk 0x11#8 0x22#8 0x80#8 0x010#9 ⟨false, true, false, true⟩
      [(0x80#8, 0x2A#8), (0x81#8, 0x07#8), (0xFF#8, 0x5C#8), (0x10#8, 0x24#8), (0x11#8, 0xFF#8)]) 0xFF#8 =
      some ⟨.continuing, 0x11#8, 0x5C#8, 0x80#8, 0x012#9, ⟨false, true, false, true⟩, 0x5C#8⟩ := by
  decide

theorem test_ldc_1 :
    outcome (mk 0x11#8 0x22#8 0x80#8 0x010#9 ⟨false, true, false, true⟩
      [(0x80#8, 0x2A#8), (0x81#8, 0x07#8), (0xFF#8, 0x5C#8), (0x10#8, 0x25#8), (0x11#8, 0x81#8)]) 0xFF#8 =
      some ⟨.continuing, 0x11#8, 0x22#8, 0x07#8, 0x012#9, ⟨false, true, false, true⟩, 0x5C#8⟩ := by
  decide

theorem test_ldc_2 :
    outcome (mk 0x11#8 0x22#8 0x80#8 0x010#9 ⟨false, true, false, true⟩
      [(0x80#8, 0x2A#8), (0x81#8, 0x07#8), (0xFF#8, 0x5C#8), (0x10#8, 0x25#8), (0x11#8, 0x80#8)]) 0xFF#8 =
      some ⟨.continuing, 0x11#8, 0x22#8, 0x2A#8, 0x012#9, ⟨false, true, false, true⟩, 0x5C#8⟩ := by
  decide

theorem test_sta_1 :
    outcome (mk 0x11#8 0x22#8 0x80#8 0x010#9 ⟨false, true, false, true⟩
      [(0x80#8, 0x2A#8), (0x81#8, 0x07#8), (0xFF#8, 0x5C#8), (0x10#8, 0x26#8), (0x11#8, 0x90#8)]) 0x90#8 =
      some ⟨.continuing, 0x11#8, 0x22#8, 0x80#8, 0x012#9, ⟨false, true, false, true⟩, 0x11#8⟩ := by
  decide

theorem test_sta_2 :
    outcome (mk 0x11#8 0x22#8 0x80#8 0x010#9 ⟨false, true, false, true⟩
      [(0x80#8, 0x2A#8), (0x81#8, 0x07#8), (0xFF#8, 0x5C#8), (0x10#8, 0x26#8), (0x11#8, 0x80#8)]) 0x80#8 =
      some ⟨.continuing, 0x11#8, 0x22#8, 0x80#8, 0x012#9, ⟨false, true, false, true⟩, 0x11#8⟩ := by
  decide

theorem test_stb_1 :
    outcome (mk 0x11#8 0x22#8 0x80#8 0x010#9 ⟨false, true, false, true⟩
      [(0x80#8, 0x2A#8), (0x81#8, 0x07#8), (0xFF#8, 0x5C#8), (0x10#8, 0x27#8), (0x11#8, 0x90#8)]) 0x90#8 =
      some ⟨.continuing, 0x11#8, 0x22#8, 0x80#8, 0x012#9, ⟨false, true, false, true⟩, 0x22#8⟩ := by
  decide

theorem test_stb_2 :
    outcome (mk 0x11#8 0x22#8 0x80#8 0x010#9 ⟨false, true, false, true⟩
      [(0x80#8, 0x2A#8), (0x81#8, 0x07#8), (0xFF#8, 0x5C#8), (0x10#8, 0x27#8), (0x11#8, 0x00#8)]) 0x00#8 =
      some ⟨.continuing, 0x11#8, 0x22#8, 0x80#8, 0x012#9, ⟨false, true, false, true⟩, 0x22#8⟩ := by
  decide

theorem test_stc_1 :
    outcome (mk 0x11#8 0x22#8 0x80#8 0x010#9 ⟨false, true, false, true⟩
      [(0x80#8, 0x2A#8), (0x81#8, 0x07#8), (0xFF#8, 0x5C#8), (0x10#8, 0x28#8), (0x11#8, 0x91#8)]) 0x91#8 =
      some ⟨.continuing, 0x11#8, 0x22#8, 0x80#8, 0x012#9, ⟨false, true, false, true⟩, 0x80#8⟩ := by
  decide

theorem test_stc_2 :
    outcome (mk 0x11#8 0x22#8 0x80#8 0x010#9 ⟨false, true, false, true⟩
      [(0x80#8, 0x2A#8), (0x81#8, 0x07#8), (0xFF#8, 0x5C#8), (0x10#8, 0x28#8), (0x11#8, 0xFF#8)]) 0xFF#8 =
      some ⟨.continuing, 0x11#8, 0x22#8, 0x80#8, 0x012#9, ⟨false, true, false, true⟩, 0x80#8⟩ := by
  decide

theorem test_ldaC_1 :
    outcome (mk 0x11#8 0x22#8 0x80#8 0x010#9 ⟨false, true, false, true⟩
      [(0x80#8, 0x2A#8), (0x81#8, 0x07#8), (0xFF#8, 0x5C#8), (0x10#8, 0x29#8)]) 0xFF#8 =
      some ⟨.continuing, 0x2A#8, 0x22#8, 0x80#8, 0x011#9, ⟨false, true, false, true⟩, 0x5C#8⟩ := by
  decide

theorem test_ldaC_2 :
    outcome (mk 0x11#8 0x22#8 0xFF#8 0x010#9 ⟨false, true, false, true⟩
      [(0x80#8, 0x2A#8), (0x81#8, 0x07#8), (0xFF#8, 0x5C#8), (0x10#8, 0x29#8)]) 0xFF#8 =
      some ⟨.continuing, 0x5C#8, 0x22#8, 0xFF#8, 0x011#9, ⟨false, true, false, true⟩, 0x5C#8⟩ := by
  decide

theorem test_staC_1 :
    outcome (mk 0x11#8 0x22#8 0x80#8 0x010#9 ⟨false, true, false, true⟩
      [(0x80#8, 0x2A#8), (0x81#8, 0x07#8), (0xFF#8, 0x5C#8), (0x10#8, 0x2A#8)]) 0x80#8 =
      some ⟨.continuing, 0x11#8, 0x22#8, 0x80#8, 0x011#9, ⟨false, true, false, true⟩, 0x11#8⟩ := by
  decide

theorem test_staC_2 :
    outcome (mk 0x11#8 0x22#8 0xFF#8 0x010#9 ⟨false, true, false, true⟩
      [(0x80#8, 0x2A#8), (0x81#8, 0x07#8), (0xFF#8, 0x5C#8), (0x10#8, 0x2A#8)]) 0xFF#8 =
      some ⟨.continuing, 0x11#8, 0x22#8, 0xFF#8, 0x011#9, ⟨false, true, false, true⟩, 0x11#8⟩ := by
  decide

theorem test_jmp_1 :
    outcome (mk 0x01#8 0x02#8 0x03#8 0x010#9 ⟨true, true, true, true⟩
      [(0x10#8, 0x2B#8), (0x11#8, 0x10#8)]) 0xFF#8 =
      some ⟨.continuing, 0x01#8, 0x02#8, 0x03#8, 0x010#9, ⟨true, true, true, true⟩, 0x00#8⟩ := by
  decide

theorem test_jmp_2 :
    outcome (mk 0x01#8 0x02#8 0x03#8 0x0FF#9 ⟨false, false, false, false⟩
      [(0xFF#8, 0x2B#8)]) 0xFF#8 =
      some ⟨.fault .operandFetch, 0x01#8, 0x02#8, 0x03#8, 0x100#9, ⟨false, false, false, false⟩, 0x2B#8⟩ := by
  decide

theorem test_js_1 :
    outcome (mk 0x01#8 0x02#8 0x03#8 0x010#9 ⟨false, true, false, false⟩
      [(0x10#8, 0x2C#8), (0x11#8, 0x40#8)]) 0xFF#8 =
      some ⟨.continuing, 0x01#8, 0x02#8, 0x03#8, 0x040#9, ⟨false, true, false, false⟩, 0x00#8⟩ := by
  decide

theorem test_js_2 :
    outcome (mk 0x01#8 0x02#8 0x03#8 0x0FE#9 ⟨true, false, true, true⟩
      [(0xFE#8, 0x2C#8), (0xFF#8, 0x20#8)]) 0xFF#8 =
      some ⟨.addressExhausted, 0x01#8, 0x02#8, 0x03#8, 0x100#9, ⟨true, false, true, true⟩, 0x20#8⟩ := by
  decide

theorem test_jz_1 :
    outcome (mk 0x01#8 0x02#8 0x03#8 0x010#9 ⟨true, false, false, false⟩
      [(0x10#8, 0x2D#8), (0x11#8, 0x40#8)]) 0xFF#8 =
      some ⟨.continuing, 0x01#8, 0x02#8, 0x03#8, 0x040#9, ⟨true, false, false, false⟩, 0x00#8⟩ := by
  decide

theorem test_jz_2 :
    outcome (mk 0x01#8 0x02#8 0x03#8 0x0FE#9 ⟨false, true, true, true⟩
      [(0xFE#8, 0x2D#8), (0xFF#8, 0x20#8)]) 0xFF#8 =
      some ⟨.addressExhausted, 0x01#8, 0x02#8, 0x03#8, 0x100#9, ⟨false, true, true, true⟩, 0x20#8⟩ := by
  decide

theorem test_jc_1 :
    outcome (mk 0x01#8 0x02#8 0x03#8 0x010#9 ⟨false, false, false, true⟩
      [(0x10#8, 0x2E#8), (0x11#8, 0x40#8)]) 0xFF#8 =
      some ⟨.continuing, 0x01#8, 0x02#8, 0x03#8, 0x040#9, ⟨false, false, false, true⟩, 0x00#8⟩ := by
  decide

theorem test_jc_2 :
    outcome (mk 0x01#8 0x02#8 0x03#8 0x0FE#9 ⟨true, true, true, false⟩
      [(0xFE#8, 0x2E#8), (0xFF#8, 0x20#8)]) 0xFF#8 =
      some ⟨.addressExhausted, 0x01#8, 0x02#8, 0x03#8, 0x100#9, ⟨true, true, true, false⟩, 0x20#8⟩ := by
  decide

theorem test_jv_1 :
    outcome (mk 0x01#8 0x02#8 0x03#8 0x010#9 ⟨false, false, true, false⟩
      [(0x10#8, 0x2F#8), (0x11#8, 0x40#8)]) 0xFF#8 =
      some ⟨.continuing, 0x01#8, 0x02#8, 0x03#8, 0x040#9, ⟨false, false, true, false⟩, 0x00#8⟩ := by
  decide

theorem test_jv_2 :
    outcome (mk 0x01#8 0x02#8 0x03#8 0x0FE#9 ⟨true, true, false, true⟩
      [(0xFE#8, 0x2F#8), (0xFF#8, 0x20#8)]) 0xFF#8 =
      some ⟨.addressExhausted, 0x01#8, 0x02#8, 0x03#8, 0x100#9, ⟨true, true, false, true⟩, 0x20#8⟩ := by
  decide
theorem test_call_1 : outcome (mk 0x09#8 0x08#8 0x07#8 0x050#9 ⟨true, false, true, false⟩
    [(0x50#8, 0x30#8), (0x51#8, 0xA0#8), (0xFF#8, 0x77#8)]) 0xFF#8 =
      some ⟨.continuing, 0x09#8, 0x08#8, 0x07#8, 0x0A0#9, ⟨true, false, true, false⟩, 0x52#8⟩ := by decide

/-- The operand is the return slot: the target is read first (decision D13). -/
theorem test_call_2 : outcome (mk 0x01#8 0x02#8 0x03#8 0x0FE#9 ⟨true, false, true, false⟩
    [(0xFE#8, 0x30#8), (0xFF#8, 0x20#8)]) 0xFF#8 =
      some ⟨.continuing, 0x01#8, 0x02#8, 0x03#8, 0x020#9, ⟨true, false, true, false⟩, 0x00#8⟩ := by decide

theorem test_ret_1 : outcome (mk 0x01#8 0x02#8 0x03#8 0x00A#9 ⟨true, false, true, false⟩
    [(0x0A#8, 0x31#8), (0xFF#8, 0x04#8)]) 0xFF#8 =
      some ⟨.continuing, 0x01#8, 0x02#8, 0x03#8, 0x004#9, ⟨true, false, true, false⟩, 0x04#8⟩ := by decide

theorem test_ret_2 : outcome (mk 0x01#8 0x02#8 0x03#8 0x0FF#9 ⟨true, false, true, false⟩
    [(0xFF#8, 0x31#8)]) 0xFF#8 =
      some ⟨.continuing, 0x01#8, 0x02#8, 0x03#8, 0x031#9, ⟨true, false, true, false⟩, 0x31#8⟩ := by decide

theorem test_nop_1 : outcome (mk 0x01#8 0x02#8 0x03#8 0x010#9 ⟨true, false, true, false⟩
    [(0x10#8, 0x3E#8)]) 0xFF#8 =
      some ⟨.continuing, 0x01#8, 0x02#8, 0x03#8, 0x011#9, ⟨true, false, true, false⟩, 0x00#8⟩ := by decide

theorem test_nop_2 : outcome (mk 0x01#8 0x02#8 0x03#8 0x0FF#9 ⟨true, false, true, false⟩
    [(0xFF#8, 0x3E#8)]) 0xFF#8 =
      some ⟨.addressExhausted, 0x01#8, 0x02#8, 0x03#8, 0x100#9, ⟨true, false, true, false⟩, 0x3E#8⟩ := by
  decide

theorem test_hlt_1 : outcome (mk 0x01#8 0x02#8 0x03#8 0x010#9 ⟨true, false, true, false⟩
    [(0x10#8, 0x3F#8)]) 0xFF#8 =
      some ⟨.halted, 0x01#8, 0x02#8, 0x03#8, 0x011#9, ⟨true, false, true, false⟩, 0x00#8⟩ := by decide

/-- Halted, not AddressExhausted (60 R166). -/
theorem test_hlt_2 : outcome (mk 0x01#8 0x02#8 0x03#8 0x0FF#9 ⟨true, false, true, false⟩
    [(0xFF#8, 0x3F#8)]) 0xFF#8 =
      some ⟨.halted, 0x01#8, 0x02#8, 0x03#8, 0x100#9, ⟨true, false, true, false⟩, 0x3F#8⟩ := by decide

/-! ### Faults, terminal states, reset and the host (95 section 2.7, 60 R160 to R166, 70) -/

/-- The unbound boundaries, at address 010: the fault, and nothing changed but `IP` and the latch. -/
theorem test_unbound : ∀ op ∈ [0x00#8, 0x01#8, 0x32#8, 0x3D#8, 0x40#8, 0x7F#8, 0x80#8, 0xFF#8],
    outcome (mk 0x01#8 0x02#8 0x03#8 0x010#9 ⟨true, false, true, false⟩ [(0x10#8, op)]) 0x10#8 =
      some ⟨.fault .invalidOpcode, 0x01#8, 0x02#8, 0x03#8, 0x011#9, ⟨true, false, true, false⟩, op⟩ := by
  decide

/-- Every two-byte instruction at 0FF, with all flags 1. -/
theorem test_operand_fetch : ∀ op ∈ [0x17#8, 0x18#8, 0x19#8, 0x20#8, 0x21#8, 0x22#8, 0x23#8, 0x24#8, 0x25#8,
      0x26#8, 0x27#8, 0x28#8, 0x2B#8, 0x2C#8, 0x2D#8, 0x2E#8, 0x2F#8, 0x30#8],
    outcome (mk 0x01#8 0x02#8 0x03#8 0x0FF#9 ⟨true, true, true, true⟩ [(0xFF#8, op)]) 0xFF#8 =
      some ⟨.fault .operandFetch, 0x01#8, 0x02#8, 0x03#8, 0x100#9, ⟨true, true, true, true⟩, op⟩ := by
  decide

/-- The conditional jumps at 0FF, with all flags 0. -/
theorem test_operand_skip : ∀ op ∈ [0x2C#8, 0x2D#8, 0x2E#8, 0x2F#8],
    outcome (mk 0x01#8 0x02#8 0x03#8 0x0FF#9 ⟨false, false, false, false⟩ [(0xFF#8, op)]) 0xFF#8 =
      some ⟨.addressExhausted, 0x01#8, 0x02#8, 0x03#8, 0x101#9, ⟨false, false, false, false⟩, op⟩ := by
  decide

/-- A small running state at address 0x10, for the tests and witnesses below. -/
def at10 (bytes : List Byte) : State :=
  writeBytes 0x10 bytes { State.reset with a := 0x05#8, b := 0x03#8, c := 0x80#8, ip := 0x010#9 }

/-- The latched fault is reported again and the `HLT` that follows is never fetched. -/
theorem test_sticky_fault :
    outcome { at10 [0x3F#8] with fault := some .invalidOpcode } 0x10#8 =
      some ⟨.fault .invalidOpcode, 0x05#8, 0x03#8, 0x80#8, 0x010#9, ⟨false, false, false, false⟩, 0x3F#8⟩
    := by decide

/-- The order of the tests: fault, then halted, then the pointer (60 R166). -/
theorem test_status_order :
    status { at10 [] with ip := 0x100#9, halted := true, fault := some .operandFetch } =
      .fault .operandFetch ∧
    status { at10 [] with ip := 0x100#9, halted := true } = .halted ∧
    status { at10 [] with ip := 0x101#9 } = .addressExhausted ∧ status (at10 []) = .continuing := by
  decide

/-- The first step on the reset state with nothing loaded (70 R182). -/
theorem test_reset_step : outcome State.reset 0x00#8 =
    some ⟨.fault .invalidOpcode, 0x00#8, 0x00#8, 0x00#8, 0x001#9, ⟨false, false, false, false⟩, 0x00#8⟩
    := by decide

/-- The diagnostics of a fault: the byte and the address where it stood (60 R160). -/
theorem test_diagnostics : (stepWith defaultRom (at10 [0x40#8])).2 =
    ⟨.fault .invalidOpcode, some ⟨0x40#8, 0x010#9⟩⟩ := by decide

/-- The coding of the fault latch (60 R162). -/
theorem test_fault_code : faultCode none = 0b00#2 ∧ faultCode (some .invalidOpcode) = 0b01#2 ∧
    faultCode (some .operandFetch) = 0b10#2 := by decide

/-- The scenario of the source (95 S1): four steps to `Halted` with A = 0x08. -/
theorem test_scenario_add :
    (match boot [0x20#8, 0x05#8, 0x21#8, 0x03#8, 0x02#8, 0x3F#8] with
      | .ok s => (run 4 s).map fun p => (p.2, p.1.a, p.1.ip, p.1.flags)
      | .error _ => none) = some ⟨.halted, 0x08#8, 0x006#9, ⟨false, false, false, false⟩⟩ := by decide

/-- The scenario of the source (95 S2): the increment wraps with Z and C set. -/
theorem test_scenario_wrap :
    (match boot [0x20#8, 0xFF#8, 0x10#8, 0x3F#8] with
      | .ok s => (run 3 s).map fun p => (p.2, p.1.a, p.1.flags)
      | .error _ => none) = some ⟨.halted, 0x00#8, ⟨true, false, false, true⟩⟩ := by decide

/-- A host write of zero leaves no entry in the list. -/
theorem test_host_write_zero : (hostWrite 0x10#8 0x00#8 (at10 [0x3F#8])).mem = [] := by decide

/-- A word placed for the fetch is executed by the next step. -/
theorem test_with_fetch_word : outcome (State.reset.withFetchWord 16 0x4121) 0x01#8 =
    some ⟨.continuing, 0x00#8, 0x41#8, 0x00#8, 0x002#9, ⟨false, false, false, false⟩, 0x41#8⟩ := by decide

/-- The accesses of `LDA C` and of a jump not taken (20 R31). -/
theorem test_accesses : stepAccesses defaultRom (at10 [0x29#8]) = [.read 0x10#8, .read 0x80#8] ∧
    stepAccesses defaultRom (at10 [0x2C#8, 0x40#8]) = [.read 0x10#8] := by decide

/-! ### Witnesses

`hyps_<Name>` shows states and operands that meet all hypotheses of the obligation `<Name>` together; where a
statement has several clauses, each clause gets a witness, at a boundary of its range. Statements that are
not listed have no hypotheses. -/

/-- The state after a step, for the witnesses about two states. -/
def after (s : State) : State :=
  match step s with
  | .next t => t
  | .fault _ => s
  | .refused _ => s

/-- The state after a meaning, for the witnesses about two states. -/
def done (i : Instr) (s : State) : State :=
  match exec i s with
  | .next t => t
  | .fault _ => s
  | .refused _ => s

/-- A running state with an opcode byte, and nothing else, at the last cell. -/
def atFF (op : Byte) : State :=
  (State.reset.memWrite 0xFF#8 op).setIp 0x0FF#9

/-- A running state with two bytes in the last two cells. -/
def atFE (op x : Byte) : State :=
  ((State.reset.memWrite 0xFE#8 op).memWrite 0xFF#8 x).setIp 0x0FE#9

theorem hyps_DecodeInvertsEncode : (Instr.adi 0xFF#8).wf = true ∧ Instr.hlt.wf = true := by decide

theorem hyps_EncodeInvertsDecode :
    decode [0x20#8, 0x05#8, 0x07#8] = .ok (.mviA 0x05#8, [0x07#8]) ∧
    decode [0x3F#8, 0x07#8] = .ok (.hlt, [0x07#8]) := ⟨rfl, rfl⟩

theorem hyps_OpcodeMapRanges :
    (∀ op ∈ [0x02#8, 0x31#8, 0x3E#8, 0x3F#8],
      2 ≤ BitVec.toNat op ∧ BitVec.toNat op ≤ 0x31 ∨ op = 0x3E#8 ∨ op = 0x3F#8) ∧
    ∀ op ∈ [0x00#8, 0x01#8, 0x32#8, 0x3D#8, 0x40#8, 0xFF#8],
      BitVec.toNat op ≤ 1 ∨ 0x32 ≤ BitVec.toNat op ∧ BitVec.toNat op ≤ 0x3D ∨
        0x40 ≤ BitVec.toNat op := by decide

theorem hyps_LengthFromOpcodeByte :
    decode (0x02#8 :: 0xFF#8 :: []) = .ok (.addB, [0xFF#8]) ∧
    decode (0x30#8 :: 0xFF#8 :: []) = .ok (.call 0xFF#8, []) := ⟨rfl, rfl⟩

theorem hyps_ControlWordRoundTrip :
    ctrlDecode 0xCCC0#16 = some (some (.jcc .V)) ∧
    (0x7FFF#16 ≠ 0x0000#16 ∧ BitVec.getLsbD 0x7FFF#16 15 = false) ∧
    (0xE000#16 ≠ 0x0000#16 ∧ BitVec.extractLsb' 13 2 0xE000#16 = 0b11#2) ∧
    0x9600#16 ≠ 0x0000#16 ∧ 11 ≤ (BitVec.extractLsb' 9 4 0x9600#16).toNat := by
  have h : descOfFields 0xCCC0#16 = some (.jcc .V) := by decide
  have g : (Desc.jcc .V).ctrl = 0xCCC0#16 := by decide
  refine ⟨by simp [ctrlDecode, h, g], ?_⟩
  simp

theorem hyps_StepRunsDecodedInstruction :
    Running (atFE 0x17#8 0xFF#8) ∧ (Instr.adi 0xFF#8).wf = true ∧
    decode (fetchBytes (atFE 0x17#8 0xFF#8)) = .ok (.adi 0xFF#8, []) :=
  ⟨by unfold Running; decide, by decide, rfl⟩

theorem hyps_StepRunsEncodedInstruction :
    Running (atFE 0x17#8 0x21#8) ∧
    (atFE 0x17#8 0x21#8).ip.toNat + (Instr.adi 0x21#8).length ≤ 256 ∧
    ∀ k v, (encode (.adi 0x21#8))[k]? = some v →
      (atFE 0x17#8 0x21#8).memRead ((atFE 0x17#8 0x21#8).ipByte + BitVec.ofNat 8 k) = v := by
  refine ⟨by unfold Running; decide, by decide, ?_⟩
  intro k v h
  match k with
  | 0 => exact Option.some.inj h
  | 1 => exact Option.some.inj h
  | k + 2 => simp [encode, Instr.operand] at h

theorem hyps_SourceBytesUnderEveryRom :
    swapCallRet.wf = true ∧
    (∀ op ∈ [0x02#8, 0x20#8, 0x21#8, 0x3E#8, 0x3F#8], Running (at10 [op, 0x07#8]) ∧
      fetchOpcode (at10 [op, 0x07#8]) = op) ∧
    Running (at10 [0xFF#8]) ∧ UnboundAt (at10 [0xFF#8]) :=
  ⟨test_wf_rom_other, by unfold Running; decide, by unfold Running; decide,
    by unfold UnboundAt OpcodeIn; decide⟩

theorem hyps_UnboundByteRaisesInvalidOpcode :
    (∀ op ∈ [0x00#8, 0x01#8, 0x32#8, 0x3D#8, 0x40#8, 0xFF#8],
      Running (atFF op) ∧ UnboundAt (atFF op)) ∧
    let s : State := { atFF 0x3E#8 with fault := some .invalidOpcode }
    exec .nop s = .next (done .nop s) ∧ (done .nop s).fault = some .invalidOpcode :=
  ⟨by unfold Running UnboundAt OpcodeIn; decide, rfl, rfl⟩

theorem hyps_TerminalStatesAreStable :
    ({ at10 [] with halted := true } : State).terminal = true ∧
    ({ at10 [] with fault := some .operandFetch } : State).terminal = true ∧
    ({ at10 [] with ip := 0x100#9 } : State).terminal = true := by decide

theorem hyps_HaltedLatch :
    (step (at10 [0x3F#8]) = .next (after (at10 [0x3F#8])) ∧ (at10 [0x3F#8]).halted = false ∧
      (after (at10 [0x3F#8])).halted = true) ∧
    let s : State := { at10 [] with halted := true }
    exec .nop s = .next (done .nop s) ∧ s.halted = true ∧
      loadProgram [0x3E#8] s = .ok (writeBytes 0 [0x3E#8] s) :=
  ⟨⟨rfl, by decide⟩, rfl, rfl, rfl⟩

theorem hyps_FaultLatchIsSetExactlyBy :
    ∀ s ∈ [at10 [0x40#8], atFF 0x17#8, atFF 0x30#8, (atFF 0x2F#8).setFlags ⟨false, false, true, false⟩],
      s.fault = none ∧ step s = .next (after s) ∧ (after s).fault.isSome = true := by
  simp only [List.forall_mem_cons]
  exact ⟨⟨rfl, rfl, by decide⟩, ⟨rfl, rfl, by decide⟩, ⟨rfl, rfl, by decide⟩, ⟨rfl, rfl, by decide⟩,
    by simp⟩

theorem hyps_FaultEntryIsPrecise :
    (step (at10 [0x00#8]) = .next (after (at10 [0x00#8])) ∧ (at10 [0x00#8]).fault = none ∧
      (after (at10 [0x00#8])).fault = some .invalidOpcode) ∧
    step (atFF 0x26#8) = .next (after (atFF 0x26#8)) ∧ (atFF 0x26#8).fault = none ∧
      (after (atFF 0x26#8)).fault = some .operandFetch :=
  ⟨⟨rfl, rfl, by decide⟩, rfl, rfl, by decide⟩

theorem hyps_NormalEnds :
    (∀ s ∈ [atFF 0x3F#8, atFF 0x3E#8, atFE 0x17#8 0x00#8, atFF 0x2C#8], Running s) ∧
    (step (atFF 0x3F#8) = .next (after (atFF 0x3F#8)) ∧ step (atFF 0x3E#8) = .next (after (atFF 0x3E#8)) ∧
      step (atFE 0x17#8 0x00#8) = .next (after (atFE 0x17#8 0x00#8)) ∧
      step (atFF 0x2C#8) = .next (after (atFF 0x2C#8))) ∧
    status (after (atFF 0x3F#8)) = .halted ∧
    status (after (atFF 0x3E#8)) = .addressExhausted ∧ (after (atFF 0x3E#8)).ip = 256#9 ∧
    status (after (atFE 0x17#8 0x00#8)) = .addressExhausted ∧
    status (after (atFF 0x2C#8)) = .addressExhausted ∧ (after (atFF 0x2C#8)).ip = 257#9 :=
  ⟨by unfold Running; decide, ⟨rfl, rfl, rfl, rfl⟩, by decide, by decide, by decide, by decide, by decide,
    by decide⟩

theorem hyps_PointerAfterStep :
    (∀ op ∈ [0x02#8, 0x16#8, 0x1A#8, 0x1F#8, 0x29#8, 0x2A#8, 0x3E#8, 0x3F#8], Running (atFF op) ∧
      (OpcodeIn (atFF op) 0x02 0x16 ∨ OpcodeIn (atFF op) 0x1A 0x1F ∨ OpcodeIn (atFF op) 0x29 0x2A ∨
        OpcodeIn (atFF op) 0x3E 0x3F)) ∧
    (∀ op ∈ [0x17#8, 0x19#8, 0x20#8, 0x28#8], ∀ s ∈ [atFF op, atFE op 0x00#8], Running s ∧
      (OpcodeIn s 0x17 0x19 ∨ OpcodeIn s 0x20 0x28)) ∧
    (∀ s ∈ [atFF 0x2B#8, atFE 0x2B#8 0x40#8], Running s ∧ OpcodeIn s 0x2B 0x2B) ∧
    (∀ op ∈ [0x2C#8, 0x2F#8], ∀ s ∈ [atFF op, atFE op 0x40#8],
      Running s ∧ OpcodeIn s 0x2C 0x2F ∧ testedFlag s = false ∧
      testedFlag (s.setFlags ⟨true, true, true, true⟩) = true) ∧
    (∀ s ∈ [atFF 0x30#8, atFE 0x30#8 0x40#8], Running s ∧ OpcodeIn s 0x30 0x30 ∧ s.mem.wf = true) ∧
    (Running (atFF 0x31#8) ∧ OpcodeIn (atFF 0x31#8) 0x31 0x31) ∧
    Running (atFF 0x40#8) ∧ UnboundAt (atFF 0x40#8) := by
  unfold Running UnboundAt OpcodeIn
  exact ⟨by decide, by decide, by decide, by decide, by decide, by decide, by decide⟩

theorem hyps_OnlyAluOpcodesChangeFlags :
    step (at10 [0x04#8]) = .next (after (at10 [0x04#8])) ∧
    (after (at10 [0x04#8])).flags ≠ (at10 [0x04#8]).flags := ⟨rfl, by decide⟩

theorem hyps_RegisterWriters :
    (step (at10 [0x1B#8]) = .next (after (at10 [0x1B#8])) ∧ (after (at10 [0x1B#8])).a ≠ 0x05#8) ∧
    (step (at10 [0x11#8]) = .next (after (at10 [0x11#8])) ∧ (after (at10 [0x11#8])).b ≠ 0x03#8) ∧
    step (at10 [0x22#8, 0x00#8]) = .next (after (at10 [0x22#8, 0x00#8])) ∧
      (after (at10 [0x22#8, 0x00#8])).c ≠ 0x80#8 :=
  ⟨⟨rfl, by decide⟩, ⟨rfl, by decide⟩, rfl, by decide⟩

theorem hyps_MemoryWriters :
    (step (at10 [0x26#8, 0xFF#8]) = .next (after (at10 [0x26#8, 0xFF#8])) ∧
      (after (at10 [0x26#8, 0xFF#8])).memRead 0xFF#8 ≠ (at10 [0x26#8, 0xFF#8]).memRead 0xFF#8) ∧
    (step (at10 [0x2A#8]) = .next (after (at10 [0x2A#8])) ∧
      (after (at10 [0x2A#8])).memRead 0x80#8 ≠ (at10 [0x2A#8]).memRead 0x80#8) ∧
    step (at10 [0x30#8, 0x40#8]) = .next (after (at10 [0x30#8, 0x40#8])) ∧
      (after (at10 [0x30#8, 0x40#8])).memRead 0xFF#8 ≠ (at10 [0x30#8, 0x40#8]).memRead 0xFF#8 :=
  ⟨⟨rfl, by decide⟩, ⟨rfl, by decide⟩, rfl, by decide⟩

theorem hyps_OnlyConditionalJumpsReadFlags :
    let s := at10 [0x06#8]
    let u := s.setFlags ⟨true, true, true, true⟩
    ¬ OpcodeIn s 0x2C 0x2F ∧ step s = .next (after s) ∧ step u = .next (after u) ∧ Running s ∧
      OpcodeIn s 0x02 0x19 ∧ (after s).fault = none :=
  ⟨by unfold OpcodeIn; decide, rfl, rfl, by unfold Running; decide, by unfold OpcodeIn; decide, by decide⟩

theorem hyps_AccessesAccountForMemory :
    (at10 [0x02#8]).terminal = false ∧
    (∀ op ∈ [0x02#8, 0x16#8, 0x1A#8, 0x1F#8, 0x3E#8, 0x3F#8, 0x01#8, 0x32#8, 0x3D#8, 0x40#8, 0x29#8, 0x2A#8,
      0x31#8], Running (atFF op) ∧ fetchOpcode (atFF op) = op) ∧
    (∀ op ∈ [0x17#8, 0x19#8, 0x20#8, 0x22#8, 0x2B#8, 0x23#8, 0x25#8, 0x26#8, 0x27#8, 0x28#8, 0x2C#8, 0x2F#8,
      0x30#8], Running (atFE op 0x80#8) ∧ (atFE op 0x80#8).ip.toNat ≤ 0xFE ∧
        fetchOpcode (atFE op 0x80#8) = op) ∧
    ∀ op ∈ [0x17#8, 0x19#8, 0x20#8, 0x28#8, 0x2B#8, 0x30#8], Running (atFF op) ∧ (atFF op).ip = 0xFF#9 ∧
      fetchOpcode (atFF op) = op := by
  unfold Running
  exact ⟨by decide, by decide, by decide, by decide⟩

theorem hyps_InvariantAtReset : Inv State.reset :=
  ⟨rfl, by decide, by decide, by decide, by decide⟩

/-- The invariant's conditional parts are met too: a state after a fault and a state after a halt. -/
theorem hyps_StepKeepsInvariant :
    (Inv State.reset ∧ step State.reset = .next (after State.reset)) ∧
    (Inv (atFF 0x26#8) ∧ step (atFF 0x26#8) = .next (after (atFF 0x26#8)) ∧
      (after (atFF 0x26#8)).fault = some .operandFetch) ∧
    Inv (atFF 0x3F#8) ∧ step (atFF 0x3F#8) = .next (after (atFF 0x3F#8)) ∧
      (after (atFF 0x3F#8)).halted = true :=
  ⟨⟨⟨rfl, by decide, by decide, by decide, by decide⟩, rfl⟩,
    ⟨⟨rfl, by decide, by decide, by decide, by decide⟩, rfl, by decide⟩,
    ⟨rfl, by decide, by decide, by decide, by decide⟩, rfl, by decide⟩

theorem hyps_EveryRomKeepsInvariant : Inv (atFF 0x2C#8) :=
  ⟨rfl, by decide, by decide, by decide, by decide⟩

theorem hyps_ReachableStatesMeetInvariant :
    Reachable (after (writeBytes 0 [0x3E#8] State.reset)) :=
  .step (writeBytes 0 [0x3E#8] State.reset) _ (.load [0x3E#8] State.reset _ .reset rfl) rfl

/-- One-byte instructions at the last cell, two-byte instructions at the last two. -/
theorem hyps_lengths : (atFF 0x00#8).ip.toNat + 1 ≤ 256 ∧ (atFE 0x00#8 0x00#8).ip.toNat + 2 ≤ 256 := by
  decide

theorem hyps_AddBResult : (atFF 0x02#8).ip.toNat + 1 ≤ 256 := by decide

theorem hyps_AddFamilyResult : let s := atFF 0x03#8; let t := atFE 0x17#8 0x07#8
    ((Instr.addC, s.c, 1) ∈ [(Instr.addC, s.c, 1), (.adi 0x07#8, 0x07#8, 2)] ∧ s.ip.toNat + 1 ≤ 256) ∧
    (Instr.adi 0x07#8, 0x07#8, 2) ∈ [(Instr.addC, t.c, 1), (.adi 0x07#8, 0x07#8, 2)] ∧
      t.ip.toNat + 2 ≤ 256 := by decide

theorem hyps_SubtractFamilyResult : let s := atFF 0x05#8; let t := atFE 0x18#8 0x07#8
    ((Instr.subC, s.c, 1) ∈ [(Instr.subB, s.b, 1), (.subC, s.c, 1), (.sui 0x07#8, 0x07#8, 2)] ∧
      s.ip.toNat + 1 ≤ 256) ∧
    (Instr.sui 0x07#8, 0x07#8, 2) ∈ [(Instr.subB, t.b, 1), (.subC, t.c, 1), (.sui 0x07#8, 0x07#8, 2)] ∧
      t.ip.toNat + 2 ≤ 256 := by decide

theorem hyps_SubtractOneMoreResult : let s := atFF 0x06#8
    (Instr.sbbB, s.b) ∈ [(Instr.sbbB, s.b), (.sbbC, s.c)] ∧ s.ip.toNat + 1 ≤ 256 := by decide

theorem hyps_LogicFamilyResult : let s := at10 [0x0C#8]
    ((Instr.anaB, s.b) ∈ [(Instr.anaB, s.b), (.anaC, s.c)] ∧ 0x01#8 = s.a &&& s.b ∧ (False ↔ False)) ∧
    ((Instr.oraC, s.c) ∈ [(Instr.oraB, s.b), (.oraC, s.c)] ∧ 0x85#8 = s.a ||| s.c ∧ (False ↔ False)) ∧
    ((Instr.xraB, s.b) ∈ [(Instr.xraB, s.b), (.xraC, s.c)] ∧ 0x06#8 = s.a ^^^ s.b ∧
      (False ↔ 128 ≤ s.a.toNat ∧ 128 ≤ s.b.toNat)) ∧ s.ip.toNat + 1 ≤ 256 := by decide

theorem hyps_CompareResult : let s := atFF 0x0F#8; let t := atFE 0x19#8 0x07#8
    ((Instr.cmpC, s.c, 1) ∈ [(Instr.cmpB, s.b, 1), (.cmpC, s.c, 1), (.cpi 0x07#8, 0x07#8, 2)] ∧
      s.ip.toNat + 1 ≤ 256) ∧
    (Instr.cpi 0x07#8, 0x07#8, 2) ∈ [(Instr.cmpB, t.b, 1), (.cmpC, t.c, 1), (.cpi 0x07#8, 0x07#8, 2)] ∧
      t.ip.toNat + 2 ≤ 256 := by decide

theorem hyps_IncrementDecrementResult : (atFF 0x12#8).ip.toNat + 1 ≤ 256 ∧
    (Instr.inrC, Reg.C) ∈ [(Instr.inrA, Reg.A), (.inrB, .B), (.inrC, .C)] ∧
    (Instr.dcrA, Reg.A) ∈ [(Instr.dcrA, Reg.A), (.dcrB, .B), (.dcrC, .C)] := by decide

theorem hyps_ComplementResult : (atFF 0x16#8).ip.toNat + 1 ≤ 256 := by decide

theorem hyps_MoveResult : (atFF 0x1F#8).ip.toNat + 1 ≤ 256 ∧
    (Instr.movCB, Reg.C, Reg.B) ∈ [(Instr.movAB, Reg.A, Reg.B), (.movAC, .A, .C), (.movBA, .B, .A),
      (.movBC, .B, .C), (.movCA, .C, .A), (.movCB, .C, .B)] := by decide

theorem hyps_ImmediateLoadResult : (atFE 0x22#8 0xFF#8).ip.toNat + 2 ≤ 256 ∧ (atFF 0x22#8).ip = 0xFF#9 ∧
    (Instr.mviC 0xFF#8, Reg.C) ∈ [(Instr.mviA 0xFF#8, Reg.A), (.mviB 0xFF#8, .B), (.mviC 0xFF#8, .C)] := by
  decide

theorem hyps_LoadResult : let s := atFE 0x24#8 0xFF#8; let t := atFF 0x29#8
    ((Instr.ldb 0xFF#8, Reg.B, 0xFF#8, 2) ∈ [(Instr.lda 0xFF#8, Reg.A, 0xFF#8, 2),
      (.ldb 0xFF#8, .B, 0xFF#8, 2), (.ldc 0xFF#8, .C, 0xFF#8, 2), (.ldaC, .A, s.c, 1)] ∧
      s.ip.toNat + 2 ≤ 256) ∧
    (Instr.ldaC, Reg.A, t.c, 1) ∈ [(Instr.lda 0xFF#8, Reg.A, 0xFF#8, 2),
      (.ldb 0xFF#8, .B, 0xFF#8, 2), (.ldc 0xFF#8, .C, 0xFF#8, 2), (.ldaC, .A, t.c, 1)] ∧
      t.ip.toNat + 1 ≤ 256 := by decide

theorem hyps_StoreResult : let s := atFE 0x27#8 0xFF#8; let t := atFF 0x2A#8
    ((Instr.stb 0xFF#8, Reg.B, none, 2) ∈ [(Instr.sta 0xFF#8, Reg.A, none, 2), (.stb 0xFF#8, .B, none, 2),
      (.stc 0xFF#8, .C, none, 2), (.staC, .A, some Reg.C, 1)] ∧ s.ip.toNat + 2 ≤ 256 ∧ s.mem.wf = true) ∧
    (Instr.staC, Reg.A, some Reg.C, 1) ∈ [(Instr.sta 0xFF#8, Reg.A, none, 2), (.stb 0xFF#8, .B, none, 2),
      (.stc 0xFF#8, .C, none, 2), (.staC, .A, some Reg.C, 1)] ∧ t.ip.toNat + 1 ≤ 256 ∧
      t.mem.wf = true := by decide

/-- Here the stored byte is 0x3F, so the next step is a halt. -/
theorem hyps_StoreIsSeenByNextFetch :
    let s : State := { at10 [0x26#8, 0x12#8] with a := 0x3F#8 }
    let t := done (.sta 0x12#8) s
    Running s ∧ s.mem.wf = true ∧ s.ip.toNat + 2 ≤ 255 ∧ 0x12#8 = s.ipByte + 2#8 ∧
      exec (.sta 0x12#8) s = .next t ∧ decodeOp s.a (fetchNextByte t) = .ok .hlt :=
  ⟨by unfold Running; decide, by decide, by decide, by decide, rfl, rfl⟩

theorem hyps_JumpDispatch :
    let s := (atFE 0x2D#8 0x40#8).setFlags ⟨true, false, false, false⟩
    let t := atFF 0x2F#8
    (∀ p ∈ [(Instr.jmp 0x40#8, true), (.jz 0x40#8, true)], p ∈ [(Instr.jmp 0x40#8, true),
      (.js 0x40#8, s.flags.s), (.jz 0x40#8, s.flags.z), (.jc 0x40#8, s.flags.c), (.jv 0x40#8, s.flags.v)]) ∧
    s.ip.toNat + 2 ≤ 256 ∧
    (Instr.jv 0x40#8, false) ∈ [(Instr.jmp 0x40#8, true),
      (.js 0x40#8, t.flags.s), (.jz 0x40#8, t.flags.z), (.jc 0x40#8, t.flags.c), (.jv 0x40#8, t.flags.v)] ∧
    t.ip.toNat + 1 ≤ 256 ∧ Running t ∧ OpcodeIn t 0x2C 0x2F ∧ testedFlag t = false := by
  unfold Running OpcodeIn; decide

theorem hyps_CallResult : (atFE 0x30#8 0x40#8).ip.toNat + 2 ≤ 256 ∧ (atFE 0x30#8 0x40#8).mem.wf = true := by
  decide

theorem hyps_ReturnResult : (atFF 0x31#8).ip.toNat + 1 ≤ 256 ∧ Running (atFF 0x31#8) ∧
    (atFF 0x31#8).ip = 0xFF#9 ∧ fetchOpcode (atFF 0x31#8) = 0x31#8 := by unfold Running; decide

/-- The state after the call is the one in which the return runs, at 0xFD and at 0xFE. -/
theorem hyps_ReturnGoesAfterCall :
    ∀ s ∈ [(atFE 0x30#8 0x40#8).setIp 0x0FD#9, atFE 0x30#8 0x40#8],
      s.mem.wf = true ∧ s.ip.toNat + 2 ≤ 256 ∧
      exec (.call 0x40#8) s = .next (done (.call 0x40#8) s) ∧
      exec .ret (done (.call 0x40#8) s) = .next (done .ret (done (.call 0x40#8) s)) ∧
      exec .ret (done .ret (done (.call 0x40#8) s)) =
        .next (done .ret (done .ret (done (.call 0x40#8) s))) := by
  simp only [List.forall_mem_cons]
  exact ⟨⟨by decide, by decide, rfl, rfl, rfl⟩, ⟨by decide, by decide, rfl, rfl, rfl⟩, by simp⟩

theorem hyps_CallAtReturnSlotEdge : let s := atFE 0x30#8 0x40#8
    Running s ∧ s.mem.wf = true ∧ s.ip = 0xFE#9 ∧ fetchOpcode s = 0x30#8 := by unfold Running; decide

theorem hyps_NopResult : let s := atFF 0x3E#8
    s.ip.toNat + 1 ≤ 256 ∧ Running s ∧ s.ip = 0xFF#9 ∧ fetchOpcode s = 0x3E#8 := by unfold Running; decide

theorem hyps_HaltResult : let s := atFF 0x3F#8
    s.ip.toNat + 1 ≤ 256 ∧ Running s ∧ fetchOpcode s = 0x3F#8 := by unfold Running; decide

theorem hyps_OperandFetchAtLastCell : (atFF 0x30#8).ip = 0xFF#9 ∧
    (Instr.js 0x07#8, (atFF 0x2C#8).flags.s) = (Instr.js 0x07#8, false) ∧
    ((atFF 0x2C#8).setFlags ⟨false, true, false, false⟩).flags.s = true := by decide

theorem hyps_ResetValues : boot [0x3F#8] = .ok (writeBytes 0 [0x3F#8] State.reset) := rfl

theorem hyps_LoadFailsWhenTooLong : (List.replicate 256 0x3E#8).length ≤ 256 ∧
    256 < (List.replicate 257 0x3E#8).length := by
  rw [List.length_replicate, List.length_replicate]; decide

theorem hyps_LoadCopiesProgram : (List.replicate 256 0x3E#8).length ≤ 256 ∧ State.reset.mem.wf = true := by
  rw [List.length_replicate]; decide

theorem hyps_HostWriteChangesOneCell : (at10 [0x3E#8]).mem.wf = true ∧ (at10 [0x3E#8]).ipByte = 0x10#8 := by
  decide

theorem hyps_RunResultIsFinal : run 1 (at10 [0x3F#8]) = some (after (at10 [0x3F#8]), .halted) ∧
    run 1 (at10 [0x00#8]) = some (after (at10 [0x00#8]), .fault .invalidOpcode) := by decide

end Sys2Proof.Tests
end

section
/-! SUPPORT. The `halted` latch (10_state.md R20) and the contents of the state after reset and load
(10_state.md R12, R19, R23; 70_reset_and_hazards.md R184). -/

namespace Sys2Proof.Machine

/-! ### What the two fetch forms do to `halted` -/

/-- A one-byte instruction whose action keeps `halted` keeps it. -/
theorem oneByte_halted {act : State → State} {s t : State} (h : oneByte act s = .next t)
    (hact : ∀ u, (act u).halted = u.halted) : t.halted = s.halted := by
  rw [oneByte_next h, hact, advance_halted]

/-- A two-byte instruction whose action keeps `halted` keeps it, the operand fault included. -/
theorem twoByte_halted {act : State → State} {s t : State} (h : twoByte act s = .next t)
    (hact : ∀ u, (act u).halted = u.halted) : t.halted = s.halted := by
  obtain ⟨-, rfl⟩ | ⟨-, rfl⟩ := twoByte_next h
  · rw [raise_halted, advance_halted]
  · rw [hact, advance_halted]

/-- A conditional jump keeps `halted`, taken or not, and when its operand fetch faults. -/
theorem condJump_halted {f : Flag} {x : Byte} {s t : State} (h : condJump f x s = .next t) :
    t.halted = s.halted := by
  obtain ⟨-, rfl⟩ | ⟨-, ⟨-, rfl⟩ | ⟨-, rfl⟩⟩ := condJump_next h <;> simp

/-! ### What an instruction and a step do to `halted` -/

/-- `HLT` sets `halted` (45 R156). -/
theorem exec_hlt_halted {s t : State} (h : exec .hlt s = .next t) : t.halted = true := by
  rw [oneByte_next h, hltAction_eq, setHalted_halted]

/-- Every instruction but `HLT` keeps `halted`. -/
theorem exec_halted_of_ne_hlt {i : Instr} {s t : State} (hi : i ≠ .hlt) (h : exec i s = .next t) :
    t.halted = s.halted := by
  cases i with
  | hlt => exact absurd rfl hi
  | js | jz | jc | jv => exact condJump_halted h
  | adi | sui | cpi => exact twoByte_halted h fun _ => aluAction_halted ..
  | mviA | mviB | mviC => exact twoByte_halted h fun _ => mviAction_halted ..
  | lda | ldb | ldc => exact twoByte_halted h fun _ => loadAction_halted ..
  | sta | stb | stc => exact twoByte_halted h fun _ => storeAction_halted ..
  | jmp => exact twoByte_halted h fun _ => jumpAction_halted ..
  | call => exact twoByte_halted h fun _ => callAction_halted ..
  | movAB | movAC | movBA | movBC | movCA | movCB =>
    exact oneByte_halted h fun _ => movAction_halted ..
  | ldaC => exact oneByte_halted h fun _ => loadAction_halted ..
  | staC => exact oneByte_halted h fun _ => storeAction_halted ..
  | ret => exact oneByte_halted h fun _ => retAction_halted ..
  | nop => exact oneByte_halted h fun _ => rfl
  | addB | addC | subB | subC | sbbB | sbbC | anaB | anaC | oraB | oraC | xraB | xraC | cmpB | cmpC
  | inrA | inrB | inrC | dcrA | dcrB | dcrC | cma =>
    exact oneByte_halted h fun _ => aluAction_halted ..

/-- No instruction clears `halted`. -/
theorem exec_keeps_halted {i : Instr} {s t : State} (h : exec i s = .next t)
    (hs : s.halted = true) : t.halted = true := by
  by_cases hi : i = .hlt
  · subst hi
    exact exec_hlt_halted h
  · rw [exec_halted_of_ne_hlt hi h, hs]

/-- `HLT` is the one instruction with opcode byte 0x3F. -/
theorem opcode_eq_hlt_iff (i : Instr) : i.opcode = 0x3F#8 ↔ i = .hlt := by
  cases i <;> simp [Instr.opcode]

/-- An unbound byte is not the byte of `HLT`. -/
theorem fetchOpcode_ne_hlt_of_error {s : State} {e : DecodeError} (h : fetchInstr s = .error e) :
    fetchOpcode s ≠ 0x3F#8 := by
  intro hop
  have hlt : decodeOp 0x3F#8 (fetchNextByte s) = .ok .hlt := rfl
  rw [fetchInstr_eq, hop, hlt] at h
  cases h

/-- A step sets `halted` exactly when it fetches `HLT`. -/
theorem step_sets_halted_iff {s t : State} (h : step s = .next t) (hs : s.halted = false) :
    t.halted = true ↔ Running s ∧ fetchOpcode s = 0x3F#8 := by
  rw [← terminal_eq_false_iff]
  obtain ⟨hterm, rfl⟩ | ⟨hterm, hf, rfl⟩ | ⟨hterm, i, -, hop, hex⟩ := step_cases h
  case inl => simp [hs, hterm]
  case inr.inl => simp [takeInvalidOpcode, hs, fetchOpcode_ne_hlt_of_error hf]
  case inr.inr =>
    rw [← hop, opcode_eq_hlt_iff]
    by_cases hi : i = .hlt
    · subst hi
      simp [hterm, exec_hlt_halted hex]
    · simp [hi, exec_halted_of_ne_hlt hi hex, hs]

/-- A halted state is terminal. -/
theorem terminal_of_halted {s : State} (h : s.halted = true) : s.terminal = true := by
  simp [State.terminal, h]

/-- A step in a terminal state accesses no memory, under any decode ROM. -/
theorem stepAccesses_terminal (rom : Rom) {s : State} (h : s.terminal = true) :
    stepAccesses rom s = [] := by
  simp [stepAccesses, h]

/-! ### What a load does -/

/-- A load succeeds exactly for a program that fits, and then it has written the program's bytes. -/
theorem loadProgram_eq_ok_iff {p : List Byte} {s t : State} :
    loadProgram p s = .ok t ↔ p.length ≤ 256 ∧ t = writeBytes Config.loadBase p s := by
  by_cases hp : p.length ≤ 256 <;> simp [loadProgram, programFits, hp, eq_comm]

/-- Writing bytes changes the memory and no other component of the state. -/
theorem writeBytes_changes_only_mem (p : List Byte) : ∀ (k : Nat) (s : State),
    writeBytes k p s = { s with mem := (writeBytes k p s).mem } := by
  induction p with
  | nil => intro k s; rfl
  | cons v rest ih => intro k s; exact ih (k + 1) (s.memWrite (BitVec.ofNat 8 k) v)

/-- Writing bytes keeps `halted`. -/
@[simp] theorem writeBytes_halted (k : Nat) (p : List Byte) (s : State) :
    (writeBytes k p s).halted = s.halted := by
  rw [writeBytes_changes_only_mem]

/-- Bytes written from address `k` on, all of them inside memory: a cell of the range reads as its byte
and every other cell as before. -/
theorem writeBytes_memRead (p : List Byte) (addr : Byte) : ∀ (k : Nat) (s : State),
    s.mem.wf = true → k + p.length ≤ 256 →
    (writeBytes k p s).memRead addr =
      if k ≤ addr.toNat then (p[addr.toNat - k]?).getD (s.memRead addr) else s.memRead addr := by
  induction p with
  | nil => intro k s _ _; simp [writeBytes]
  | cons v rest ih =>
    intro k s hwf hlen
    simp only [List.length_cons] at hlen
    have hk : (BitVec.ofNat 8 k).toNat = k := Nat.mod_eq_of_lt (by omega)
    have haddr : addr = BitVec.ofNat 8 k ↔ addr.toNat = k := by rw [← BitVec.toNat_inj, hk]
    rw [writeBytes, ih (k + 1) _ (memWrite_wf s _ v hwf) (by omega), memRead_memWrite s _ v addr hwf]
    simp only [haddr]
    rcases Nat.lt_trichotomy addr.toNat k with hlt | heq | hgt
    · have hout : ¬ k + 1 ≤ addr.toNat := by omega
      simp [hlt.ne, hlt.not_ge, hout]
    · simp [heq]
    · have hidx : addr.toNat - k = addr.toNat - (k + 1) + 1 := by omega
      simp [hgt.ne', hgt.le, Nat.succ_le_of_lt hgt, hidx]

/-! ### What reset leaves -/

@[simp] theorem reset_readReg (r : Reg) : State.reset.readReg r = 0x00#8 := by cases r <;> rfl
@[simp] theorem reset_readFlag (f : Flag) : State.reset.readFlag f = false := by cases f <;> rfl
@[simp] theorem reset_memRead (addr : Byte) : State.reset.memRead addr = 0x00#8 := rfl

/-- After reset and load a cell holds the program's byte at its address, and 0x00 past the program. -/
theorem boot_memRead {p : List Byte} {t : State} (h : boot p = .ok t) (addr : Byte) :
    t.memRead addr = (p[addr.toNat]?).getD 0x00#8 := by
  obtain ⟨hfits, rfl⟩ := loadProgram_eq_ok_iff.mp h
  have hrange : Config.loadBase + p.length ≤ 256 := by rwa [Config.loadBase, Nat.zero_add]
  rw [writeBytes_memRead p addr Config.loadBase State.reset reset_mem_wf hrange]
  simp

/-! ### The obligations -/

/-- Settles O14: by the cases of a step and of the instructions, of which `HLT` alone touches the latch. -/
theorem haltedLatch : Obligations.HaltedLatch := by
  refine ⟨fun _ _ => step_sets_halted_iff, fun _ _ _ => exec_keeps_halted, ?load, ?write, ?rest, rfl⟩
  case load =>
    intro p s t h
    obtain ⟨-, rfl⟩ := loadProgram_eq_ok_iff.mp h
    exact writeBytes_halted ..
  case write => exact fun x v s => memWrite_halted s x v
  case rest =>
    intro s hs
    have hterm := terminal_of_halted hs
    exact ⟨step_terminal hterm, stepAccesses_terminal defaultRom hterm⟩

/-- Settles O52: the load clause by induction on the bytes written. -/
theorem resetValues : Obligations.ResetValues :=
  ⟨reset_readReg, reset_readFlag, reset_memRead, fun _ _ => boot_memRead⟩

end Sys2Proof.Machine
end

section
/-! SUPPORT. When a load fails (20_memory.md R38). -/

namespace Sys2Proof.Machine

/-- A load fails exactly for a program longer than the memory (20 R38). The error `e` is left free because
`LoadError` has one value. -/
theorem loadProgram_eq_error_iff {p : List Byte} {s : State} {e : LoadError} :
    loadProgram p s = .error e ↔ 256 < p.length := by
  obtain hfits | hlong := le_or_gt p.length 256
  · have hok : loadProgram p s = .ok _ := loadProgram_eq_ok_iff.mpr ⟨hfits, rfl⟩
    simp [hok, hfits]
  · cases e
    simp [loadProgram, programFits, hlong]

/-- Settles O54: each clause is one direction of the exact condition for a failed or a successful load. -/
theorem loadFailsWhenTooLong : Obligations.LoadFailsWhenTooLong := fun _ _ =>
  ⟨loadProgram_eq_error_iff.mpr, fun hfits => ⟨_, loadProgram_eq_ok_iff.mpr ⟨hfits, rfl⟩⟩⟩

end Sys2Proof.Machine
end

section
/-! SUPPORT. The opcode map (30_encoding.md R56, R57) and the length of an instruction (30 R52): what a
decode ROM that meets R57 binds, and how the decoder agrees with the default one. -/

namespace Sys2Proof

/-! ### The ranges of a decode ROM -/

/-- A range check of a decode ROM, read at one byte of the range. -/
theorem Rom.allIn_entry {rom : Rom} {lo hi : Nat} {p : Desc → Bool} (h : rom.allIn lo hi p = true)
    {op : Byte} (hop : lo ≤ op.toNat ∧ op.toNat ≤ hi) : ∃ e, rom op = some e ∧ p e.desc = true := by
  have hentry := List.all_eq_true.mp h op.toNat (List.mem_range'_1.mpr (by omega))
  rw [BitVec.ofNat_toNat, BitVec.setWidth_eq] at hentry
  split at hentry
  next e he => exact ⟨e, he, hentry⟩
  next => cases hentry

/-- A byte of a range that a decode ROM leaves unbound has no entry. -/
theorem Rom.unboundIn_entry {rom : Rom} {lo hi : Nat} (h : rom.unboundIn lo hi = true)
    {op : Byte} (hop : lo ≤ op.toNat ∧ op.toNat ≤ hi) : rom op = none := by
  have hentry := List.all_eq_true.mp h op.toNat (List.mem_range'_1.mpr (by omega))
  rwa [BitVec.ofNat_toNat, BitVec.setWidth_eq, Option.isNone_iff_eq_none] at hentry

/-- Constraint (a) of R57, read at one byte. -/
theorem Rom.eq_none_of_wfUnbound {rom : Rom} (h : rom.wfUnbound = true) {op : Byte}
    (hop : op.toNat ≤ 1 ∨ 0x32 ≤ op.toNat ∧ op.toNat ≤ 0x3D ∨ 0x40 ≤ op.toNat) : rom op = none := by
  simp only [Rom.wfUnbound, Bool.and_eq_true] at h
  obtain ⟨⟨hlow, hgap⟩, hhigh⟩ := h
  obtain hop | hop | hop := hop
  · exact Rom.unboundIn_entry hlow ⟨Nat.zero_le _, hop⟩
  · exact Rom.unboundIn_entry hgap hop
  · exact Rom.unboundIn_entry hhigh ⟨hop, Nat.le_of_lt_succ op.isLt⟩

/-- The descriptor `d` has the category that R56 gives to the byte `op`, and no other category. -/
def HasCategoryOf (op : Byte) (d : Desc) : Prop :=
  (d.isAlu = true ↔ 0x02 ≤ op.toNat ∧ op.toNat ≤ 0x19) ∧
  (d.isMove = true ↔ 0x1A ≤ op.toNat ∧ op.toNat ≤ 0x22) ∧
  (d.isMemory = true ↔ 0x23 ≤ op.toNat ∧ op.toNat ≤ 0x2A) ∧
  (d.isJump = true ↔ 0x2B ≤ op.toNat ∧ op.toNat ≤ 0x2F) ∧
  (d = .call ∨ d = .ret ↔ op = 0x30#8 ∨ op = 0x31#8) ∧
  (d = .nop ↔ op = 0x3E#8) ∧ (d = .hlt ↔ op = 0x3F#8)

/-- The ranges of R56 are disjoint and so are the categories: a descriptor with the category of one range
that holds the byte has no other category. -/
theorem hasCategoryOf_of_range {op : Byte} {d : Desc}
    (h : (0x02 ≤ op.toNat ∧ op.toNat ≤ 0x19) ∧ d.isAlu = true ∨
      (0x1A ≤ op.toNat ∧ op.toNat ≤ 0x22) ∧ d.isMove = true ∨
      (0x23 ≤ op.toNat ∧ op.toNat ≤ 0x2A) ∧ d.isMemory = true ∨
      (0x2B ≤ op.toNat ∧ op.toNat ≤ 0x2F) ∧ d.isJump = true ∨
      (0x30 ≤ op.toNat ∧ op.toNat ≤ 0x31) ∧ (d = .call ∨ d = .ret) ∨
      op.toNat = 0x3E ∧ d = .nop ∨ op.toNat = 0x3F ∧ d = .hlt) : HasCategoryOf op d := by
  simp only [HasCategoryOf, ← BitVec.toNat_inj, BitVec.toNat_ofNat]
  cases d <;> grind [Desc.isAlu, Desc.isMove, Desc.isMemory, Desc.isJump]

/-- A range whose check `p` implies the category of the byte binds the byte with that category. -/
theorem Rom.allIn_hasCategoryOf {rom : Rom} {lo hi : Nat} {p : Desc → Bool}
    (h : rom.allIn lo hi p = true) {op : Byte} (hop : lo ≤ op.toNat ∧ op.toNat ≤ hi)
    (hcat : ∀ d, p d = true → HasCategoryOf op d) : ∃ e, rom op = some e ∧ HasCategoryOf op e.desc := by
  obtain ⟨e, he, hp⟩ := Rom.allIn_entry h hop
  exact ⟨e, he, hcat e.desc hp⟩

/-- Under constraints (b) and (c) of R57 every byte that R56 names is bound, with the category that R56
gives it. -/
theorem Rom.entry_hasCategoryOf {rom : Rom} (hclass : rom.wfClasses = true)
    (hsource : rom.wfSourceBytes = true) {op : Byte}
    (hop : 2 ≤ op.toNat ∧ op.toNat ≤ 0x31 ∨ op = 0x3E#8 ∨ op = 0x3F#8) :
    ∃ e, rom op = some e ∧ HasCategoryOf op e.desc := by
  simp only [Rom.wfClasses, Bool.and_eq_true] at hclass
  obtain ⟨⟨⟨⟨⟨⟨halu, hmove⟩, hmemory⟩, hjump⟩, hsub⟩, -⟩, -⟩ := hclass
  simp only [Rom.wfSourceBytes, Bool.and_eq_true, beq_iff_eq] at hsource
  obtain ⟨⟨-, hnop⟩, hhlt⟩ := hsource
  obtain hop | rfl | rfl := hop
  · have hrange : (0x02 ≤ op.toNat ∧ op.toNat ≤ 0x19) ∨ (0x1A ≤ op.toNat ∧ op.toNat ≤ 0x22) ∨
        (0x23 ≤ op.toNat ∧ op.toNat ≤ 0x2A) ∨ (0x2B ≤ op.toNat ∧ op.toNat ≤ 0x2F) ∨
        (0x30 ≤ op.toNat ∧ op.toNat ≤ 0x31) := by omega
    obtain hr | hr | hr | hr | hr := hrange
    · exact Rom.allIn_hasCategoryOf halu hr fun d hd => hasCategoryOf_of_range (by simp [hr, hd])
    · exact Rom.allIn_hasCategoryOf hmove hr fun d hd => hasCategoryOf_of_range (by simp [hr, hd])
    · exact Rom.allIn_hasCategoryOf hmemory hr fun d hd => hasCategoryOf_of_range (by simp [hr, hd])
    · exact Rom.allIn_hasCategoryOf hjump hr fun d hd => hasCategoryOf_of_range (by simp [hr, hd])
    · refine Rom.allIn_hasCategoryOf hsub hr fun d hd => hasCategoryOf_of_range ?_
      simp only [Bool.or_eq_true, beq_iff_eq] at hd
      simp [hr, hd]
  · exact ⟨_, hnop, hasCategoryOf_of_range (by simp)⟩
  · exact ⟨_, hhlt, hasCategoryOf_of_range (by simp)⟩

/-- The default decode ROM meets constraints (a), (b) and (c) of R57. -/
theorem defaultRom_meets_map_constraints :
    defaultRom.wfUnbound = true ∧ defaultRom.wfClasses = true ∧ defaultRom.wfSourceBytes = true := by
  decide

/-! ### The length that a mode gives -/

/-- R52 read backwards: a descriptor has length 1 exactly when its mode is None. -/
theorem Desc.length_eq_one_iff (d : Desc) : d.length = 1 ↔ d.mode = .none := by
  cases h : d.mode <;> simp [Desc.length, h]

/-- A descriptor has length 2 exactly when its mode is Immediate or Address. -/
theorem Desc.length_eq_two_iff (d : Desc) : d.length = 2 ↔ d.mode = .immediate ∨ d.mode = .address := by
  cases h : d.mode <;> simp [Desc.length, h]

end Sys2Proof

namespace Sys2Proof.Machine

/-! ### The decoder and the default decode ROM -/

open Laws in
/-- `EncodedLength.Statement` holds of every instruction, by its lemma for each. -/
theorem encodedLength : ∀ i : Instr, EncodedLength.Statement i
  | .addB => EncodedLength.addB | .addC => EncodedLength.addC | .subB => EncodedLength.subB
  | .subC => EncodedLength.subC | .sbbB => EncodedLength.sbbB | .sbbC => EncodedLength.sbbC
  | .anaB => EncodedLength.anaB | .anaC => EncodedLength.anaC | .oraB => EncodedLength.oraB
  | .oraC => EncodedLength.oraC | .xraB => EncodedLength.xraB | .xraC => EncodedLength.xraC
  | .cmpB => EncodedLength.cmpB | .cmpC => EncodedLength.cmpC | .inrA => EncodedLength.inrA
  | .inrB => EncodedLength.inrB | .inrC => EncodedLength.inrC | .dcrA => EncodedLength.dcrA
  | .dcrB => EncodedLength.dcrB | .dcrC => EncodedLength.dcrC | .cma => EncodedLength.cma
  | .adi x => EncodedLength.adi x | .sui x => EncodedLength.sui x | .cpi x => EncodedLength.cpi x
  | .movAB => EncodedLength.movAB | .movAC => EncodedLength.movAC | .movBA => EncodedLength.movBA
  | .movBC => EncodedLength.movBC | .movCA => EncodedLength.movCA | .movCB => EncodedLength.movCB
  | .mviA x => EncodedLength.mviA x | .mviB x => EncodedLength.mviB x | .mviC x => EncodedLength.mviC x
  | .lda x => EncodedLength.lda x | .ldb x => EncodedLength.ldb x | .ldc x => EncodedLength.ldc x
  | .sta x => EncodedLength.sta x | .stb x => EncodedLength.stb x | .stc x => EncodedLength.stc x
  | .ldaC => EncodedLength.ldaC | .staC => EncodedLength.staC | .jmp x => EncodedLength.jmp x
  | .js x => EncodedLength.js x | .jz x => EncodedLength.jz x | .jc x => EncodedLength.jc x
  | .jv x => EncodedLength.jv x | .call x => EncodedLength.call x | .ret => EncodedLength.ret
  | .nop => EncodedLength.nop | .hlt => EncodedLength.hlt

/-- The default decode ROM binds every byte that the decoder accepts, and the entry gives the length. -/
theorem bound_of_decodeOp_ok {op x : Byte} {i : Instr} (h : decodeOp op x = .ok i) :
    ∃ e, defaultRom op = some e ∧ e.desc.length = i.length :=
  decodeOp_opcode h ▸ (encodedLength i).1

/-- The decoder accepts every byte that the default decode ROM binds, whatever the second byte is, and
the entry gives the length. -/
theorem decodeOp_ok_of_bound {op : Byte} {e : RomEntry} (h : defaultRom op = some e) (x : Byte) :
    ∃ i, decodeOp op x = .ok i ∧ i.opcode = op ∧ i.length = e.desc.length := by
  have hok : ∃ i, decodeOp op x = .ok i := by
    unfold defaultRom at h
    split at h <;> cases h <;> exact ⟨_, rfl⟩
  obtain ⟨i, hi⟩ := hok
  obtain ⟨e', he', hlen⟩ := bound_of_decodeOp_ok hi
  obtain rfl : e' = e := Option.some.inj (he'.symm.trans h)
  exact ⟨i, hi, decodeOp_opcode hi, hlen.symm⟩

/-- The decoder rejects every byte that the default decode ROM leaves unbound. -/
theorem decodeOp_error_of_unbound {op : Byte} (h : defaultRom op = none) (x : Byte) :
    decodeOp op x = .error (.invalidOpcode op) := by
  cases hd : decodeOp op x with
  | error e => rw [decodeOp_error hd]
  | ok i =>
    obtain ⟨e, he, -⟩ := bound_of_decodeOp_ok hd
    cases h.symm.trans he

/-- The decoder consumes as many bytes as the instruction is long. -/
theorem decode_two_of_decodeOp {op x : Byte} {i : Instr} (h : decodeOp op x = .ok i) (rest : List Byte) :
    decode (op :: x :: rest) = .ok (i, (x :: rest).drop (i.length - 1)) := by
  simp only [decode, List.headD_cons, h]
  cases hi : i.operand <;> simp [Instr.length, hi]

/-- What the decoder answers on two bytes or more is what the first two select. -/
theorem decodeOp_of_decode_two {op x : Byte} {rest rest' : List Byte} {i : Instr}
    (h : decode (op :: x :: rest) = .ok (i, rest')) : decodeOp op x = .ok i := by
  rw [← decode_two op x rest, h, Except.map]

/-! ### The obligations -/

/-- Settles O3: the ranges are those that R57 demands of every decode ROM, and the decoder accepts
exactly the bytes that the default one binds. -/
theorem opcodeMapRanges : Obligations.OpcodeMapRanges := by
  obtain ⟨hunbound, hclass, hsource⟩ := defaultRom_meets_map_constraints
  refine ⟨fun op opnd => ⟨fun hop => ?bound, fun hop => ?unbound⟩, fun n => ⟨rfl, rfl, rfl, rfl, rfl⟩⟩
  case bound =>
    obtain ⟨e, he, hcat⟩ := Rom.entry_hasCategoryOf hclass hsource hop
    obtain ⟨i, hi, hopcode, -⟩ := decodeOp_ok_of_bound he opnd
    exact ⟨i, e, hi, hopcode, he, hcat⟩
  case unbound =>
    have hnone := Rom.eq_none_of_wfUnbound hunbound hop
    exact ⟨decodeOp_error_of_unbound hnone opnd, hnone⟩

/-- Settles O4: the entry of the default decode ROM at the opcode byte fixes the length, so any second
byte gives an instruction of that opcode and length. -/
theorem lengthFromOpcodeByte : Obligations.LengthFromOpcodeByte := by
  intro op x rest rest' i h
  have hi := decodeOp_of_decode_two h
  rw [decode_two_of_decodeOp hi] at h
  obtain rfl : _ = rest' := congrArg Prod.snd (Except.ok.inj h)
  obtain ⟨e, he, hlen⟩ := bound_of_decodeOp_ok hi
  refine ⟨e, he, decodeOp_opcode hi, (encodedLength i).2.symm, ?one, ?two, rfl, fun y => ?second⟩
  case one => rw [← hlen, e.desc.length_eq_one_iff]
  case two => rw [← hlen, e.desc.length_eq_two_iff]
  case second =>
    obtain ⟨j, hj, hopcode, hlen'⟩ := decodeOp_ok_of_bound he y
    exact ⟨j, _, decode_two_of_decodeOp hj rest, hopcode, hlen'.trans hlen⟩

end Sys2Proof.Machine
end

section
/-! SUPPORT. The flag contract of the ALU (40_alu.md R83), the core's addition as numbers (40 R80, R87), and
the effect of `ADD B` (40 R90). -/

namespace Sys2Proof.Machine

/-! ### Flag values -/

/-- The top bit of a word is set exactly when its value is in the upper half of the range. -/
theorem getLsbD_top_iff {w : Nat} (v : BitVec (w + 1)) : v.getLsbD w = true ↔ 2 ^ w ≤ v.toNat := by
  have hmsb : v.msb = decide (2 ^ w ≤ v.toNat) := v.msb_eq_decide
  rw [← decide_eq_true_iff (p := 2 ^ w ≤ v.toNat), ← hmsb, BitVec.msb_eq_getLsbD_last, Nat.add_sub_cancel]

/-- The conditions of carry and overflow may be replaced by equivalent ones. -/
theorem FlagsAre.congr {f : Flags} {res : Byte} {carry carry' overflow overflow' : Prop}
    (h : FlagsAre f res carry overflow) (hcarry : carry ↔ carry') (hoverflow : overflow ↔ overflow') :
    FlagsAre f res carry' overflow' := by
  obtain ⟨hz, hs, hc, hv⟩ := h
  exact ⟨hz, hs, hc.trans hcarry, hv.trans hoverflow⟩

/-- The flag contract (40 R83), for any widened value and any two effective operands. -/
theorem aluFlags_flagsAre (x e2 : Byte) (wide : BitVec 9) :
    FlagsAre (aluFlags x e2 wide) (wide.setWidth 8) (255 < wide.toNat)
      ((128 ≤ x.toNat ↔ 128 ≤ e2.toNat) ∧ ¬ (128 ≤ wide.toNat % 256 ↔ 128 ≤ x.toNat)) := by
  have hsign (v : Byte) : v.getLsbD 7 = true ↔ 128 ≤ v.toNat := getLsbD_top_iff v
  have hres : (wide.setWidth 8).toNat = wide.toNat % 256 := BitVec.toNat_setWidth 8 wide
  refine ⟨?zero, hsign _, getLsbD_top_iff wide, ?overflow⟩
  case zero => exact beq_iff_eq.trans BitVec.toNat_inj.symm
  case overflow =>
    rw [← hres, ← hsign, ← hsign, ← hsign, ← Bool.eq_iff_iff, ← Bool.eq_iff_iff]
    simp only [aluFlags, Bool.and_eq_true, beq_iff_eq, bne_iff_ne, ne_eq]

/-! ### Addition in the core -/

/-- The widened sum does not wrap (40 R80). -/
theorem wideSum_toNat (x y : Byte) (cin : Bool) :
    (wideSum x y cin).toNat = x.toNat + y.toNat + cin.toNat := by
  have hx := x.isLt
  have hy := y.isLt
  have hcin := cin.toNat_le
  simp only [wideSum, BitVec.toNat_add, zext9_toNat, BitVec.toNat_setWidth, BitVec.toNat_ofBool]
  omega

/-- The overflow rule is signed overflow (40 R86): the operands have one sign and the truncated sum has the
other exactly when the signed sum, carry-in included, does not fit in 8 bits. -/
theorem signsOverflow_iff_outsideSigned (x y : Byte) (cin : Bool) :
    ((128 ≤ x.toNat ↔ 128 ≤ y.toNat) ∧
      ¬ (128 ≤ (x.toNat + y.toNat + cin.toNat) % 256 ↔ 128 ≤ x.toNat)) ↔
    OutsideSigned (x.toInt + y.toInt + cin.toNat) := by
  have hx := x.isLt
  have hy := y.isLt
  have hcin := cin.toNat_le
  simp only [OutsideSigned, BitVec.toInt_eq_toNat_cond]
  split <;> split <;> omega

/-- The result of an addition without carry-in is the sum modulo 256. -/
theorem aluCore_add_res (x y : Byte) : (aluCore .add x y false).res = x + y := by
  apply BitVec.eq_of_toNat_eq
  calc (aluCore .add x y false).res.toNat
      = (wideSum x y false).toNat % 256 := BitVec.toNat_setWidth 8 _
    _ = (x.toNat + y.toNat) % 256 := by rw [wideSum_toNat, Bool.toNat_false, Nat.add_zero]
    _ = (x + y).toNat := (BitVec.toNat_add x y).symm

/-- The flags of an addition: carry is unsigned overflow and `V` is signed overflow. -/
theorem aluCore_add_flagsAre (x y : Byte) (cin : Bool) :
    FlagsAre (aluCore .add x y cin).flags (aluCore .add x y cin).res
      (255 < x.toNat + y.toNat + cin.toNat) (OutsideSigned (x.toInt + y.toInt + cin.toNat)) := by
  have h := aluFlags_flagsAre x y (wideSum x y cin)
  rw [wideSum_toNat] at h
  exact h.congr .rfl (signsOverflow_iff_outsideSigned x y cin)

/-! ### The effect of an ALU instruction -/

/-- An ALU action after the fetch of `len` bytes has the whole effect of 40 R85, with the flag conditions that
the core's outputs meet. -/
theorem aluAction_advance_effect {fn : AluFn} {cin : Bool} {ra : Reg} {y : Byte} {s : State}
    {carry overflow : Prop} (wb : Bool) (len : Nat)
    (hflags : FlagsAre (aluCore fn (s.readReg ra) y cin).flags (aluCore fn (s.readReg ra) y cin).res
      carry overflow) :
    AluEffect s (aluAction fn cin wb ra y (s.advance len)) len (if wb then some ra else none)
      (aluCore fn (s.readReg ra) y cin).res carry overflow := by
  refine ⟨fun r => ?regs, ?flags, ?ip, memRead_congr ?mem, ?halted, ?fault⟩
  case regs => cases wb <;> simp
  case flags => rwa [aluAction_flags, advance_readReg]
  case ip => rw [aluAction_ip, advance_ip]
  case mem => rw [aluAction_mem, advance_mem]
  case halted => rw [aluAction_halted, advance_halted]
  case fault => rw [aluAction_fault, advance_fault]

/-- `ADD B` is the ALU action of its descriptor, after the opcode fetch (40 R90). -/
theorem exec_addB (s : State) :
    exec .addB s = .next (aluAction .add false true .A s.b (s.advance 1)) := rfl

/-! ### The obligations -/

/-- Settles O28: the first clause is the contract itself; the core and the ALU action derive their flags by
it. -/
theorem flagContract : Obligations.FlagContract :=
  ⟨aluFlags_flagsAre, fun _ _ _ _ => ⟨rfl, rfl⟩, aluAction_flags⟩

/-- Settles O31: by the effect of an ALU action, with the core's sum and its flags for carry-in 0. -/
theorem addBResult : Obligations.AddBResult := by
  refine ⟨rfl, rfl, fun s _ => ⟨_, exec_addB s, ?_⟩⟩
  have hflags := aluCore_add_flagsAre s.a s.b false
  have heffect := aluAction_advance_effect (ra := .A) true 1 hflags
  simpa [aluCore_add_res, State.readReg] using heffect

end Sys2Proof.Machine
end

section
/-! SUPPORT. The pointer after an advance that does not wrap (10_state.md R13), the result at the end of memory
(60_exceptions.md R166), and the effect of `NOP` (45_nop_halt.md R155). -/

namespace Sys2Proof.Machine

/-! ### The pointer and the end of memory -/

/-- An advance whose end the 9-bit pointer holds does not wrap. -/
theorem advance_ip_toNat {s : State} {n : Nat} (h : s.ip.toNat + n < 512) :
    (s.advance n).ip.toNat = s.ip.toNat + n := by
  rw [advance_ip, BitVec.toNat_add, BitVec.toNat_ofNat, Nat.add_mod_mod, Nat.mod_eq_of_lt h]

/-- A state calls for `AddressExhausted` exactly when neither latch is set and the pointer is out of memory
(60 R166). -/
theorem status_addressExhausted_iff (s : State) :
    status s = .addressExhausted ↔ s.fault = none ∧ s.halted = false ∧ 255 < s.ip.toNat := by
  unfold status
  cases s.fault <;> cases s.halted <;> simp [State.outOfMemory]

/-! ### `NOP` -/

/-- `NOP` is the opcode fetch alone (45 R155). -/
theorem exec_nop (s : State) : exec .nop s = .next (s.advance 1) := rfl

/-- A running state whose opcode byte is 0x3E executes `NOP`. -/
theorem step_nop {s : State} (hrun : Running s) (hop : fetchOpcode s = 0x3E#8) :
    step s = .next (s.advance 1) := by
  have hfetch : fetchInstr s = .ok .nop := by
    rw [fetchInstr_eq, hop]
    rfl
  rw [step_ok ((terminal_eq_false_iff s).mpr hrun) hfetch, exec_nop]

/-! ### The obligation -/

/-- Settles O49: `NOP` is the advance by one, whose frame is that of every advance; at the last cell it leaves
the pointer out of memory with both latches clear. -/
theorem nopResult : Obligations.NopResult := by
  refine ⟨rfl, rfl, fun s hip => ⟨s.advance 1, exec_nop s, ?pointer, ?regs, ?flags, ?mem, ?latches⟩,
    ?atLastCell⟩
  case pointer => exact advance_ip_toNat (by omega)
  case regs => exact fun r _ => advance_readReg s 1 r
  case flags => exact advance_flags s 1
  case mem => exact advance_memRead s 1
  case latches => exact ⟨advance_halted s 1, advance_fault s 1⟩
  case atLastCell =>
    intro s hrun hip hop
    have hend : (s.advance 1).ip = 256#9 := by
      rw [advance_ip, hip]
      rfl
    have hstep := step_nop hrun hop
    obtain ⟨hfault, hhalted, -⟩ := hrun
    have hstatus : status (s.advance 1) = .addressExhausted :=
      (status_addressExhausted_iff _).mpr ⟨hfault, hhalted, by rw [hend]; decide⟩
    exact ⟨s.advance 1, hstep, hend, hstatus⟩

end Sys2Proof.Machine
end

section
/-! SUPPORT. The entry of a fault (60_exceptions.md R160, R167), the unbound bytes (30_encoding.md R59), and
what an instruction does to the latch `fault`. -/

namespace Sys2Proof.Machine

/-! ### The entry of a fault -/

/-- Raising any fault after the opcode fetch is a fault entry: its whole effect is the latch and the pointer
(60 R167). -/
theorem raise_after_opcode_faultEntry (s : State) (f : Fault) :
    FaultEntry s ((s.advance 1).raise f) f := by
  refine ⟨raise_fault _ f, ?pointer, fun r _ => ?regs, raise_flags _ f, fun x => ?mem, raise_halted _ f⟩
  case pointer => rw [raise_ip, advance_ip]
  case regs => rw [raise_readReg, advance_readReg]
  case mem => rw [raise_memRead, advance_memRead]

/-- A latched fault is the result that a state calls for, whatever else it holds (60 R166). -/
theorem status_of_fault {s : State} {f : Fault} (h : s.fault = some f) : status s = .fault f := by
  simp [status, h]

/-- The step that latches a fault reports it with the opcode byte and its address. -/
theorem reportOf_latches {s t : State} {f : Fault} (hs : s.fault = none) (ht : t.fault = some f) :
    reportOf s t = ⟨.fault f, some ⟨fetchOpcode s, s.ip⟩⟩ := by
  simp [reportOf, status_of_fault ht, hs, ht]

/-! ### An unbound byte -/

/-- The decoder rejects the bytes at the pointer when the opcode byte is unbound (30 R59). -/
theorem fetchInstr_error_of_unbound {s : State} (h : UnboundAt s) :
    fetchInstr s = .error (.invalidOpcode (fetchOpcode s)) := by
  have hrange : (fetchOpcode s).toNat ≤ 1 ∨
      0x32 ≤ (fetchOpcode s).toNat ∧ (fetchOpcode s).toNat ≤ 0x3D ∨ 0x40 ≤ (fetchOpcode s).toNat := by
    unfold UnboundAt OpcodeIn at h
    omega
  obtain ⟨hunbound, -, -⟩ := defaultRom_meets_map_constraints
  rw [fetchInstr_eq]
  exact decodeOp_error_of_unbound (Rom.eq_none_of_wfUnbound hunbound hrange) _

/-- A running state at an unbound byte takes the fault `InvalidOpcode` (60 R160). -/
theorem step_unbound {s : State} (hrun : Running s) (h : UnboundAt s) :
    step s = .next (takeInvalidOpcode s) :=
  step_error ((terminal_eq_false_iff s).mpr hrun) (fetchInstr_error_of_unbound h)

/-! ### What the two fetch forms and the instructions do to `fault` -/

/-- A one-byte instruction whose action keeps `fault` keeps it. -/
theorem oneByte_fault {act : State → State} {s t : State} (h : oneByte act s = .next t)
    (hact : ∀ u, (act u).fault = u.fault) : t.fault = s.fault := by
  rw [oneByte_next h, hact, advance_fault]

/-- A two-byte instruction whose action keeps `fault` keeps it or latches `OperandFetch`. -/
theorem twoByte_fault {act : State → State} {s t : State} (h : twoByte act s = .next t)
    (hact : ∀ u, (act u).fault = u.fault) : t.fault = s.fault ∨ t.fault = some .operandFetch := by
  obtain ⟨-, rfl⟩ | ⟨-, rfl⟩ := twoByte_next h
  · exact .inr (raise_fault _ _)
  · exact .inl (by rw [hact, advance_fault])

/-- A conditional jump keeps `fault` or, taken, latches `OperandFetch`. -/
theorem condJump_fault {f : Flag} {x : Byte} {s t : State} (h : condJump f x s = .next t) :
    t.fault = s.fault ∨ t.fault = some .operandFetch := by
  obtain ⟨-, rfl⟩ | ⟨-, ⟨-, rfl⟩ | ⟨-, rfl⟩⟩ := condJump_next h <;> simp

/-- The one fault that an instruction can latch is `OperandFetch` (60 R161). -/
theorem exec_fault {i : Instr} {s t : State} (h : exec i s = .next t) :
    t.fault = s.fault ∨ t.fault = some .operandFetch := by
  cases i with
  | js | jz | jc | jv => exact condJump_fault h
  | adi | sui | cpi => exact twoByte_fault h fun _ => aluAction_fault ..
  | mviA | mviB | mviC => exact twoByte_fault h fun _ => mviAction_fault ..
  | lda | ldb | ldc => exact twoByte_fault h fun _ => loadAction_fault ..
  | sta | stb | stc => exact twoByte_fault h fun _ => storeAction_fault ..
  | jmp => exact twoByte_fault h fun _ => jumpAction_fault ..
  | call => exact twoByte_fault h fun _ => callAction_fault ..
  | movAB | movAC | movBA | movBC | movCA | movCB =>
    exact .inl (oneByte_fault h fun _ => movAction_fault ..)
  | ldaC => exact .inl (oneByte_fault h fun _ => loadAction_fault ..)
  | staC => exact .inl (oneByte_fault h fun _ => storeAction_fault ..)
  | ret => exact .inl (oneByte_fault h fun _ => retAction_fault ..)
  | nop => exact .inl (oneByte_fault h fun _ => rfl)
  | hlt => exact .inl (oneByte_fault h fun _ => setHalted_fault ..)
  | addB | addC | subB | subC | sbbB | sbbC | anaB | anaC | oraB | oraC | xraB | xraC | cmpB | cmpC
  | inrA | inrB | inrC | dcrA | dcrB | dcrC | cma =>
    exact .inl (oneByte_fault h fun _ => aluAction_fault ..)

/-! ### The obligation -/

/-- Settles O12: an unbound byte takes the fault, whose entry and report are those of every fault; an
instruction latches no fault but `OperandFetch`, so an `InvalidOpcode` it leaves was latched before. -/
theorem unboundByteRaisesInvalidOpcode : Obligations.UnboundByteRaisesInvalidOpcode := by
  refine ⟨fun s hrun hunbound => ?unbound, fun i s t hexec ht => ?instruction⟩
  case unbound =>
    have hstep := step_unbound hrun hunbound
    obtain ⟨hfault, -, -⟩ := hrun
    exact ⟨takeInvalidOpcode s, hstep, raise_after_opcode_faultEntry s .invalidOpcode,
      reportOf_latches hfault (raise_fault _ .invalidOpcode)⟩
  case instruction =>
    obtain hkeep | hoperand := exec_fault hexec
    · exact hkeep.symm.trans ht
    · cases hoperand.symm.trans ht

end Sys2Proof.Machine
end

section
/-! SUPPORT. The two directions of the byte encoding (30_encoding.md R51, R60), the stored control words
(30 R55) and the printed initializer (30 R58). -/

namespace Sys2Proof

/-! ### Bytes and instructions -/

/-- An opcode byte and an operand byte select the instruction that has them; the byte `x` stands where the
format has no operand byte, and does not matter. -/
theorem decodeOp_opcode_operand (i : Instr) (x : Byte) :
    decodeOp i.opcode (i.operand.getD x) = .ok i := by
  cases i <;> rfl

/-- The decoder has no operand byte to use but the one it was given. -/
theorem decodeOp_operand {op x : Byte} {i : Instr} (h : decodeOp op x = .ok i) :
    i.operand.getD x = x := by
  unfold decodeOp at h
  split at h <;> cases h <;> rfl

/-- An instruction without an operand byte is decoded from its opcode byte alone. -/
theorem decode_cons_of_no_operand {op : Byte} {tail : List Byte} {i : Instr}
    (h : decodeOp op (tail.headD 0x00#8) = .ok i) (hoperand : i.operand = none) :
    decode (op :: tail) = .ok (i, tail) := by
  simp only [decode, h, hoperand]

/-- An instruction with an operand byte is not decoded from its opcode byte alone. -/
theorem decode_singleton_of_operand {op x : Byte} {i : Instr}
    (h : decodeOp op 0x00#8 = .ok i) (hoperand : i.operand = some x) :
    decode [op] = .error (.missingOperand op) := by
  simp only [decode, List.headD_nil, h, hoperand]

/-- An instruction with an operand byte takes the byte after the opcode byte. -/
theorem decode_cons_cons_of_operand {op x y : Byte} {tail : List Byte} {i : Instr}
    (h : decodeOp op y = .ok i) (hoperand : i.operand = some x) :
    decode (op :: y :: tail) = .ok (i, tail) := by
  simp only [decode, List.headD_cons, h, hoperand]

/-- Settles O1: the opcode byte and the operand byte select the instruction, and its operand says how many
bytes the decoder consumes. -/
theorem decodeInvertsEncode : Obligations.DecodeInvertsEncode := by
  intro i rest _
  cases hoperand : i.operand with
  | none =>
    have hbytes : encode i ++ rest = i.opcode :: rest := by simp [encode, hoperand]
    have hselect := decodeOp_opcode_operand i (rest.headD 0x00#8)
    rw [hoperand, Option.getD_none] at hselect
    rw [hbytes, decode_cons_of_no_operand hselect hoperand]
  | some x =>
    have hbytes : encode i ++ rest = i.opcode :: x :: rest := by simp [encode, hoperand]
    have hselect := decodeOp_opcode_operand i x
    rw [hoperand, Option.getD_some] at hselect
    rw [hbytes, decode_cons_cons_of_operand hselect hoperand]

/-- Settles O2: a decoded instruction has the opcode byte and, where it has one, the operand byte that the
decoder read. -/
theorem encodeInvertsDecode : Obligations.EncodeInvertsDecode := by
  rintro (_ | ⟨op, tail⟩) rest i h
  · cases h
  cases hselect : decodeOp op (tail.headD 0x00#8) with
  | error e =>
    simp only [decode, hselect, reduceCtorEq] at h
  | ok j =>
    have hopcode := Machine.decodeOp_opcode hselect
    have hgiven := decodeOp_operand hselect
    cases hoperand : j.operand with
    | none =>
      rw [decode_cons_of_no_operand hselect hoperand] at h
      cases h
      simp [encode, hopcode, hoperand]
    | some x =>
      cases tail with
      | nil =>
        rw [decode_singleton_of_operand hselect hoperand] at h
        cases h
      | cons y tail =>
        rw [List.headD_cons] at hselect hgiven
        rw [decode_cons_cons_of_operand hselect hoperand] at h
        cases h
        rw [hoperand, Option.getD_some] at hgiven
        simp [encode, hopcode, hoperand, hgiven]

/-- Settles O7: by running the decoder. -/
theorem sourceEncodingsDecode : Obligations.SourceEncodingsDecode :=
  ⟨rfl, rfl, rfl, fun _ => ⟨rfl, rfl⟩⟩

/-! ### The fields of a control word -/

section
variable (valid : BitVec 1) (mode : BitVec 2) (cls : BitVec 4) (fn : BitVec 3) (cin wb : Bool)
  (ra rb : BitVec 2)

/-- The place of each field in the concatenation of all eight (30 R55). -/
theorem append_fields :
    let w := valid ++ mode ++ cls ++ fn ++ BitVec.ofBool cin ++ BitVec.ofBool wb ++ ra ++ rb
    w.getLsbD 15 = valid.getLsbD 0 ∧ w.extractLsb' 13 2 = mode ∧ w.extractLsb' 9 4 = cls ∧
      w.extractLsb' 6 3 = fn ∧ w.getLsbD 5 = cin ∧ w.getLsbD 4 = wb ∧ w.extractLsb' 2 2 = ra ∧
      w.extractLsb' 0 2 = rb := by
  simp only [BitVec.getLsbD_append, BitVec.extractLsb'_append_eq_of_le, Nat.reduceLeDiff, Nat.reduceSub,
    BitVec.extractLsb'_append_eq_right]
  simp

/-- Each field of a control word is read back from its place (30 R55). -/
theorem ctrlFields_fields :
    let w := ctrlFields valid mode cls fn cin wb ra rb
    w.getLsbD 15 = valid.getLsbD 0 ∧ w.extractLsb' 13 2 = mode ∧ w.extractLsb' 9 4 = cls ∧
      w.extractLsb' 6 3 = fn ∧ w.getLsbD 5 = cin ∧ w.getLsbD 4 = wb ∧ w.extractLsb' 2 2 = ra ∧
      w.extractLsb' 0 2 = rb :=
  append_fields ..

end

@[simp] theorem regOfCode_regCodeOrNone (r : Option Reg) : regOfCode (regCodeOrNone r) = r := by
  rcases r with _ | _ | _ | _ <;> rfl
@[simp] theorem regOfCode_code (r : Reg) : regOfCode r.code = some r := by cases r <;> rfl
@[simp] theorem modeOfCode_code (m : Mode) : modeOfCode m.code = some m := by cases m <;> rfl
@[simp] theorem aluFnOfCode_code (f : AluFn) : aluFnOfCode f.code = some f := by cases f <;> rfl
@[simp] theorem flagOfCode_code (f : Flag) : flagOfCode f.code = some f := by cases f <;> rfl

/-- The fields of a stored control word name its descriptor. -/
theorem descOfFields_ctrl (d : Desc) : descOfFields d.ctrl = some d := by
  cases d <;> simp [Desc.ctrl, descOfFields, ctrlFields_fields, -BitVec.getLsbD_eq_getElem]

/-- A stored control word is valid, its mode is no unused coding and its class is one of the eleven
(30 R55). -/
theorem ctrl_used_codings (d : Desc) : d.ctrl.getLsbD 15 = true ∧ d.ctrl.extractLsb' 13 2 ≠ 0b11#2 ∧
    (d.ctrl.extractLsb' 9 4).toNat < 11 := by
  have hmode (m : Mode) : m.code ≠ 0b11#2 := by cases m <;> decide
  cases d <;> simp [Desc.ctrl, ctrlFields_fields, hmode, -BitVec.getLsbD_eq_getElem]

/-- A control word stands for the descriptor whose stored word it is, and for no other. -/
theorem ctrlDecode_eq_desc_iff {w : CtrlWord} {d : Desc} :
    ctrlDecode w = some (some d) ↔ w = d.ctrl := by
  constructor
  · intro h
    unfold ctrlDecode at h
    split at h
    · cases h
    · split at h
      · split at h
        next hstored =>
          cases h
          exact hstored.symm
        · cases h
      · cases h
  · rintro rfl
    obtain ⟨hvalid, -, -⟩ := ctrl_used_codings d
    have hbound : d.ctrl ≠ 0x0000#16 := fun h => by simp [h] at hvalid
    simp [ctrlDecode, hbound, descOfFields_ctrl]

/-- The all-zero word is the only one that stands for an unbound entry (30 R55). -/
theorem ctrlDecode_eq_unbound_iff {w : CtrlWord} : ctrlDecode w = some none ↔ w = 0x0000#16 := by
  unfold ctrlDecode
  split
  · simp [*]
  · split
    · split <;> simp [*]
    · simp [*]

/-- Settles O6: a word that is not all zero stands for a descriptor only if it is its stored word, and no
stored word holds an unused coding. -/
theorem controlWordRoundTrip : Obligations.ControlWordRoundTrip := by
  refine ⟨fun d => ctrlDecode_eq_desc_iff.mpr rfl, fun w d h => (ctrlDecode_eq_desc_iff.mp h).symm,
    fun w hzero hunused => ?unused⟩
  case unused =>
    match h : ctrlDecode w with
    | none => rfl
    | some none => exact absurd (ctrlDecode_eq_unbound_iff.mp h) hzero
    | some (some d) =>
      obtain rfl := ctrlDecode_eq_desc_iff.mp h
      obtain ⟨hvalid, hmode, hclass⟩ := ctrl_used_codings d
      obtain hv | hm | hc := hunused
      · cases hvalid.symm.trans hv
      · exact absurd hm hmode
      · omega

/-- Settles O5: by comparing the 256 words. -/
theorem romInitializerIsDefaultRom : Obligations.RomInitializerIsDefaultRom :=
  ⟨by simp only [romInitializer, List.length_append, List.length_replicate, List.length_cons,
    List.length_nil], by decide⟩

end Sys2Proof
end

section
/-! SUPPORT. The descriptor machine (30_encoding.md R61 to R64) said once: what a step over a decode ROM does
with the descriptor of the opcode byte, and that every meaning is its descriptor's action. -/

namespace Sys2Proof

/-- The descriptor of an instruction in the default decode ROM. -/
def Instr.desc (i : Instr) : Desc := ((defaultRom i.opcode).map RomEntry.desc).getD .nop

/-- The descriptor of an instruction is that of the ROM entry at its opcode byte. -/
theorem desc_of_defaultRom {i : Instr} {e : RomEntry} (h : defaultRom i.opcode = some e) :
    i.desc = e.desc := by
  simp [Instr.desc, h]

/-- The descriptor of an instruction gives its length. -/
theorem desc_length (i : Instr) : i.desc.length = i.length := by
  obtain ⟨⟨e, he, hlen⟩, -⟩ := Machine.encodedLength i
  rw [desc_of_defaultRom he, hlen]

end Sys2Proof

namespace Sys2Proof.Machine

/-- A state calls for another result than Continuing exactly when it is terminal. -/
theorem status_ne_continuing_iff (s : State) : status s ≠ .continuing ↔ s.terminal = true := by
  rw [ne_eq, status_continuing_iff, ← terminal_eq_false_iff, Bool.not_eq_false]

/-! ### Actions -/

/-- No action touches the latch `fault`. -/
@[simp] theorem executeDesc_fault (d : Desc) (x : Byte) (s : State) :
    (executeDesc d x s).fault = s.fault := by
  cases d with
  | jcc f => by_cases hf : s.readFlag f <;> simp [executeDesc, hf]
  | _ => simp [executeDesc]

/-- The instruction needs its operand byte (30 R63): its format has one and it is no conditional jump
whose flag is 0. -/
def needsOperand (d : Desc) (s : State) : Bool := decide (d.mode ≠ .none) && !skipsOperand d s

/-- Only a conditional jump can step over its operand byte. -/
theorem skipsOperand_iff {d : Desc} {s : State} :
    skipsOperand d s = true ↔ ∃ f, d = .jcc f ∧ s.readFlag f = false := by
  cases d <;> simp [skipsOperand]

@[simp] theorem skipsOperand_advance (d : Desc) (s : State) (n : Nat) :
    skipsOperand d (s.advance n) = skipsOperand d s := by
  cases d <;> simp [skipsOperand]

@[simp] theorem needsOperand_advance (d : Desc) (s : State) (n : Nat) :
    needsOperand d (s.advance n) = needsOperand d s := by
  simp [needsOperand]

/-- An instruction that does not need its operand byte does the same whatever the byte is. -/
theorem executeDesc_congr_operand {d : Desc} {x y : Byte} {s : State} (h : needsOperand d s = true → x = y) :
    executeDesc d x s = executeDesc d y s := by
  by_cases hneeds : needsOperand d s = true
  · rw [h hneeds]
  · cases d with
    | alu m fn cin wb ra rb =>
      cases m <;> simp_all [needsOperand, Desc.mode, skipsOperand, executeDesc, aluOperand2]
    | load ra rb | store ra rb =>
      cases rb <;> simp_all [needsOperand, Desc.mode, skipsOperand, executeDesc, effectiveAddr]
    | _ => simp_all [needsOperand, Desc.mode, skipsOperand, executeDesc]

/-! ### The state after an instruction -/

/-- The operand fetch takes the fault OperandFetch (60 R161): the operand byte is needed and lies outside
memory. -/
def operandFaults (d : Desc) (s : State) : Bool := needsOperand d s && (s.advance 1).outOfMemory

/-- The state after an instruction with descriptor `d` and operand byte `x` whose opcode byte stands at the
pointer: the fault of the operand fetch, or the action after the pointer advance. -/
def afterDesc (d : Desc) (x : Byte) (s : State) : State :=
  if operandFaults d s then (s.advance 1).raise .operandFetch else executeDesc d x (s.advance d.length)

theorem afterDesc_of_faults {d : Desc} {x : Byte} {s : State} (h : operandFaults d s = true) :
    afterDesc d x s = (s.advance 1).raise .operandFetch := by
  rw [afterDesc, if_pos h]

theorem afterDesc_of_not_faults {d : Desc} {x : Byte} {s : State} (h : operandFaults d s = false) :
    afterDesc d x s = executeDesc d x (s.advance d.length) := by
  rw [afterDesc, if_neg (by simp [h])]

theorem advance_advance (s : State) : (s.advance 1).advance 1 = s.advance 2 := by
  simp only [State.advance, State.setIp, BitVec.add_assoc]
  rfl

/-- What the operand fetch of the descriptor machine answers when it does not fault: the pointer has passed
the instruction, and the byte is the one after the opcode byte wherever it matters. -/
theorem fetchOperand_of_not_faults {d : Desc} {s : State} (h : operandFaults d s = false) :
    ∃ x, fetchOperand d (s.advance 1) = .ok (x, s.advance d.length) ∧
      (needsOperand d s = true → x = fetchNextByte s) := by
  by_cases hmode : d.mode = .none
  · exact ⟨0x00#8, by simp [fetchOperand, Desc.length, hmode], by simp [needsOperand, hmode]⟩
  have hlen : d.length = 2 := by
    cases hm : d.mode <;> simp_all [Desc.length]
  by_cases hskip : skipsOperand d s = true
  · refine ⟨0x00#8, ?_, by simp [needsOperand, hskip]⟩
    cases hm : d.mode <;> simp_all [fetchOperand, advance_advance]
  · have hmem : (s.advance 1).outOfMemory = false := by
      simpa [operandFaults, needsOperand, hmode, hskip] using h
    refine ⟨fetchNextByte s, ?_, fun _ => rfl⟩
    cases hm : d.mode <;> simp_all [fetchOperand, advance_advance, fetchNextByte]

/-- What the operand fetch of the descriptor machine answers when it faults. -/
theorem fetchOperand_of_faults {d : Desc} {s : State} (h : operandFaults d s = true) :
    fetchOperand d (s.advance 1) = .error ((s.advance 1).raise .operandFetch) := by
  cases hm : d.mode <;> simp_all [operandFaults, needsOperand, fetchOperand]

/-! ### The step over a decode ROM -/

theorem stepWith_terminal (rom : Rom) {s : State} (h : s.terminal = true) :
    stepWith rom s = (s, reportOf s s) := by
  cases hf : s.fault <;> simp [stepWith, h, reportOf, hf]

theorem stepWith_unbound {rom : Rom} {s : State} (hrun : Running s) (h : rom (fetchOpcode s) = none) :
    stepWith rom s = (takeInvalidOpcode s, reportOf s (takeInvalidOpcode s)) := by
  have hterm := (terminal_eq_false_iff s).mpr hrun
  obtain ⟨hfault, -, -⟩ := hrun
  have hreport : reportOf s (takeInvalidOpcode s) = _ := reportOf_latches hfault (raise_fault _ .invalidOpcode)
  rw [hreport]
  simp [stepWith, hterm, h, takeInvalidOpcode]

theorem stepWith_bound {rom : Rom} {s : State} {e : RomEntry} (hrun : Running s)
    (h : rom (fetchOpcode s) = some e) :
    stepWith rom s =
      (afterDesc e.desc (fetchNextByte s) s, reportOf s (afterDesc e.desc (fetchNextByte s) s)) := by
  have hterm := (terminal_eq_false_iff s).mpr hrun
  obtain ⟨hfault, -, -⟩ := hrun
  cases hfaults : operandFaults e.desc s with
  | true =>
    rw [afterDesc_of_faults hfaults, reportOf_latches hfault (raise_fault _ .operandFetch)]
    simp [stepWith, hterm, h, fetchOperand_of_faults hfaults]
  | false =>
    obtain ⟨x, hfetch, hx⟩ := fetchOperand_of_not_faults hfaults
    have hact : executeDesc e.desc x (s.advance e.desc.length) = afterDesc e.desc (fetchNextByte s) s := by
      rw [afterDesc_of_not_faults hfaults]
      exact executeDesc_congr_operand (by simpa using hx)
    have hkeep : (afterDesc e.desc (fetchNextByte s) s).fault = none := by
      simp [afterDesc_of_not_faults hfaults, hfault]
    simp [stepWith, hterm, h, hfetch, hact, reportOf, hkeep]

/-- What every step over a decode ROM returns to the host is computed from the states before and after it. -/
theorem stepWith_eq (rom : Rom) (s : State) :
    stepWith rom s = ((stepWith rom s).1, reportOf s (stepWith rom s).1) := by
  cases hterm : s.terminal with
  | true => rw [stepWith_terminal rom hterm]
  | false =>
    have hrun := (terminal_eq_false_iff s).mp hterm
    cases hrom : rom (fetchOpcode s) with
    | none => rw [stepWith_unbound hrun hrom]
    | some e => rw [stepWith_bound hrun hrom]

/-- All that a step over a decode ROM can do to the state. -/
theorem stepWith_cases (rom : Rom) (s : State) :
    s.terminal = true ∧ (stepWith rom s).1 = s ∨
      Running s ∧ rom (fetchOpcode s) = none ∧ (stepWith rom s).1 = takeInvalidOpcode s ∨
      Running s ∧ ∃ e, rom (fetchOpcode s) = some e ∧
        (stepWith rom s).1 = afterDesc e.desc (fetchNextByte s) s := by
  cases hterm : s.terminal with
  | true => exact .inl ⟨rfl, by rw [stepWith_terminal rom hterm]⟩
  | false =>
    have hrun := (terminal_eq_false_iff s).mp hterm
    cases hrom : rom (fetchOpcode s) with
    | none => exact .inr (.inl ⟨hrun, rfl, by rw [stepWith_unbound hrun hrom]⟩)
    | some e => exact .inr (.inr ⟨hrun, e, rfl, by rw [stepWith_bound hrun hrom]⟩)

/-! ### The meanings -/

/-- A meaning of one byte is the action of its descriptor. -/
theorem oneByte_eq_afterDesc {act : State → State} (d : Desc) (x : Byte) (s : State) (hmode : d.mode = .none)
    (hact : executeDesc d x (s.advance 1) = act (s.advance 1)) : oneByte act s = .next (afterDesc d x s) := by
  rw [afterDesc_of_not_faults (by simp [operandFaults, needsOperand, hmode]), Desc.length, hmode, hact,
    oneByte]

/-- A meaning that needs its operand byte is the action of its descriptor, or the fault. -/
theorem twoByte_eq_afterDesc {act : State → State} (d : Desc) (x : Byte) (s : State) (hlen : d.length = 2)
    (hneeds : needsOperand d s = true) (hact : executeDesc d x (s.advance 2) = act (s.advance 2)) :
    twoByte act s = .next (afterDesc d x s) := by
  rw [twoByte, afterDesc, operandFaults, hneeds, Bool.true_and, hlen, hact]
  split <;> rfl

/-- A conditional jump is the action of its descriptor, taken or not. -/
theorem condJump_eq_afterDesc (f : Flag) (x : Byte) (s : State) :
    condJump f x s = .next (afterDesc (.jcc f) x s) := by
  cases hf : s.readFlag f <;>
    simp [condJump, twoByte, afterDesc, operandFaults, needsOperand, skipsOperand, Desc.mode, Desc.length,
      executeDesc, hf, apply_ite Host.Outcome.next]

/-- Every meaning is the action of its instruction's descriptor in the default decode ROM (30 R64). The byte
`x` stands where the format has no operand byte, and does not matter. -/
theorem exec_eq_afterDesc (i : Instr) (x : Byte) (s : State) :
    exec i s = .next (afterDesc i.desc (i.operand.getD x) s) := by
  cases i with
  | js | jz | jc | jv => exact condJump_eq_afterDesc ..
  | adi | sui | cpi | mviA | mviB | mviC | lda | ldb | ldc | sta | stb | stc | jmp | call =>
    exact twoByte_eq_afterDesc _ _ s rfl rfl rfl
  | _ => exact oneByte_eq_afterDesc _ _ s rfl rfl

/-- The step is the descriptor machine at the default decode ROM. -/
theorem step_eq_stepWith (s : State) : step s = .next (stepWith defaultRom s).1 := by
  obtain ⟨hterm, hnext⟩ | ⟨hrun, hrom, hnext⟩ | ⟨hrun, e, hrom, hnext⟩ := stepWith_cases defaultRom s
  case inl => rw [hnext, step_terminal hterm]
  case inr.inl =>
    have hdecode := decodeOp_error_of_unbound hrom (fetchNextByte s)
    rw [← fetchInstr_eq] at hdecode
    rw [hnext, step_error ((terminal_eq_false_iff s).mpr hrun) hdecode]
  case inr.inr =>
    obtain ⟨i, hdecode, hopcode, -⟩ := decodeOp_ok_of_bound hrom (fetchNextByte s)
    have hdesc := desc_of_defaultRom (hopcode ▸ hrom)
    have hoperand := decodeOp_operand hdecode
    rw [← fetchInstr_eq] at hdecode
    rw [hnext, step_ok ((terminal_eq_false_iff s).mpr hrun) hdecode, exec_eq_afterDesc i (fetchNextByte s),
      hdesc, hoperand]

/-- All that a step can do, by the descriptor of the opcode byte. -/
theorem step_desc_cases {s t : State} (h : step s = .next t) :
    s.terminal = true ∧ t = s ∨
      Running s ∧ defaultRom (fetchOpcode s) = none ∧ t = takeInvalidOpcode s ∨
      Running s ∧ ∃ e, defaultRom (fetchOpcode s) = some e ∧ t = afterDesc e.desc (fetchNextByte s) s := by
  obtain rfl : (stepWith defaultRom s).1 = t := Host.Outcome.next.inj ((step_eq_stepWith s).symm.trans h)
  exact stepWith_cases defaultRom s

/-- The ranges of the unbound bytes, as those of constraint (a) of 30 R57. -/
theorem unboundAt_iff {s : State} : UnboundAt s ↔ (fetchOpcode s).toNat ≤ 1 ∨
    0x32 ≤ (fetchOpcode s).toNat ∧ (fetchOpcode s).toNat ≤ 0x3D ∨ 0x40 ≤ (fetchOpcode s).toNat := by
  unfold UnboundAt OpcodeIn
  omega

/-! ### The obligations -/

/-- Settles O10: by the cases of a step over a decode ROM, in which every meaning is its descriptor's action. -/
theorem stepRefinesRomEngine : Obligations.StepRefinesRomEngine := fun s =>
  ⟨_, step_eq_stepWith s, stepWith_eq defaultRom s⟩

/-- Settles O11: a step looks at the decode ROM only at the opcode byte, and there an admissible ROM has the
default entry. -/
theorem sourceBytesUnderEveryRom : Obligations.SourceBytesUnderEveryRom := by
  intro rom s hwf _ hop
  have hentry : rom (fetchOpcode s) = defaultRom (fetchOpcode s) := by
    simp only [Rom.wf, Bool.and_eq_true] at hwf
    obtain ⟨⟨⟨⟨hunbound, -⟩, hsource⟩, -⟩, -⟩ := hwf
    obtain ⟨hdefault, -, -⟩ := defaultRom_meets_map_constraints
    obtain hbyte | hbyte := hop
    · simp only [Rom.wfSourceBytes, Bool.and_eq_true, beq_iff_eq] at hsource
      obtain ⟨⟨⟨⟨hadd, hmviA⟩, hmviB⟩, hnop⟩, hhlt⟩ := hsource
      simp only [List.mem_cons, List.not_mem_nil, or_false] at hbyte
      obtain hb | hb | hb | hb | hb := hbyte <;> rw [hb]
      exacts [hadd, hmviA, hmviB, hnop, hhlt]
    · have hrange := unboundAt_iff.mp hbyte
      rw [Rom.eq_none_of_wfUnbound hunbound hrange, Rom.eq_none_of_wfUnbound hdefault hrange]
  simp only [stepWith, hentry]

/-- Settles O8: the instruction at the pointer is the one that the bytes there decode to. -/
theorem stepRunsDecodedInstruction : Obligations.StepRunsDecodedInstruction := by
  intro s i rest hrun _ hdecode
  have hfetch : fetchInstr s = .ok i := by rw [fetchInstr, hdecode, Except.map]
  exact step_ok ((terminal_eq_false_iff s).mpr hrun) hfetch

/-- Settles O9: the two bytes at the pointer select the instruction whose bytes they are. -/
theorem stepRunsEncodedInstruction : Obligations.StepRunsEncodedInstruction := by
  intro s i hrun hfits hbytes
  have hopcode : fetchOpcode s = i.opcode := by
    have := hbytes 0 i.opcode rfl
    simpa [fetchOpcode] using this
  have hnext : i.operand.getD (fetchNextByte s) = fetchNextByte s := by
    cases hoperand : i.operand with
    | none => rfl
    | some x =>
      have hx := hbytes 1 x (by simp [encode, hoperand])
      have hlen : i.length = 2 := by simp [Instr.length, hoperand]
      have hmem : (s.advance 1).outOfMemory = false := by
        rw [advance_one_outOfMemory s (by omega), decide_eq_false_iff_not]
        omega
      simp [fetchNextByte, hmem, hx]
  have hfetch : fetchInstr s = .ok i := by
    rw [fetchInstr_eq, hopcode, ← hnext, decodeOp_opcode_operand]
  exact step_ok ((terminal_eq_false_iff s).mpr hrun) hfetch

/-- Settles O13: by induction on the number of steps. -/
theorem terminalStatesAreStable : Obligations.TerminalStatesAreStable := by
  intro n s hterm
  refine ⟨?run, ?report, ?status⟩
  case run =>
    induction n with
    | zero => rfl
    | succ n ih =>
      have hstep : core.step s = .next s := step_terminal hterm
      simp only [Host.Core.run, hstep, ih]
  case report => simp [stepWith, hterm]
  case status => exact (status_ne_continuing_iff s).mpr hterm

end Sys2Proof.Machine
end

section
/-! SUPPORT. The invariant (10_state.md R13, R23; 60_exceptions.md R160, R161; 45_nop_halt.md R156): what the
action of a descriptor does to the pointer, the latch `halted` and memory, and that every operation keeps the
invariant. -/

namespace Sys2Proof.Machine

/-! ### What an action does to the pointer, to `halted` and to memory -/

/-- Where the action of a descriptor sends the pointer, if it is not left after the instruction (10 R14). -/
def jumpTarget (d : Desc) (x : Byte) (s : State) : Option Byte :=
  match d with
  | .jmp | .call => some x
  | .jcc f => if s.readFlag f then some x else none
  | .ret => some (s.memRead Config.retSlot)
  | _ => none

/-- An action leaves the pointer where it stands or sets it to its target. -/
theorem executeDesc_ip (d : Desc) (x : Byte) (s : State) :
    (executeDesc d x s).ip = (jumpTarget d x s).elim s.ip zext9 := by
  cases d with
  | jcc f => by_cases hf : s.readFlag f <;> simp [executeDesc, jumpTarget, hf]
  | _ => simp [executeDesc, jumpTarget]

/-- `HLT` is the one action that touches the latch `halted`. -/
theorem executeDesc_halted (d : Desc) (x : Byte) (s : State) :
    (executeDesc d x s).halted = (s.halted || decide (d = .hlt)) := by
  cases d with
  | jcc f => by_cases hf : s.readFlag f <;> simp [executeDesc, hf]
  | _ => simp [executeDesc]

/-- An action leaves the memory that its data access gives. -/
theorem executeDesc_mem (d : Desc) (x : Byte) (s : State) :
    (executeDesc d x s).mem = (applyAccesses (dataAccess d x s) s).mem := by
  cases d with
  | jcc f => by_cases hf : s.readFlag f <;> simp [executeDesc, dataAccess, applyAccesses, hf]
  | store ra rb => rfl
  | call => rfl
  | _ => simp [executeDesc, dataAccess, applyAccesses]

/-- Memory accesses keep the canonical form. -/
theorem applyAccesses_wf (l : List Access) : ∀ {s : State}, s.mem.wf = true →
    (applyAccesses l s).mem.wf = true := by
  induction l with
  | nil => exact id
  | cons a rest ih =>
    intro s h
    cases a with
    | read x => exact ih h
    | write x v => exact ih (memWrite_wf s x v h)

/-! ### The step keeps the invariant -/

/-- An instruction in a running state leaves a state that meets the invariant. -/
theorem afterDesc_inv {d : Desc} {x : Byte} {s : State} (hrun : Running s) (hwf : s.mem.wf = true) :
    Inv (afterDesc d x s) := by
  obtain ⟨hfault, hhalted, hip⟩ := hrun
  cases hfaults : operandFaults d s with
  | true =>
    have hend : s.ip.toNat = 255 := by
      rw [operandFaults, Bool.and_eq_true, advance_one_outOfMemory s hip, decide_eq_true_eq] at hfaults
      obtain ⟨-, hend⟩ := hfaults
      exact hend
    have hnext : (s.advance 1).ip.toNat = 256 := by rw [advance_ip_toNat (by omega), hend]
    rw [afterDesc_of_faults hfaults]
    exact ⟨hwf, by rw [raise_ip, hnext]; decide, by simp, fun _ => ⟨hhalted, hnext⟩, by simp [hhalted]⟩
  | false =>
    have hlen : d.length ≤ 2 := by cases hm : d.mode <;> simp [Desc.length, hm]
    have hnext : (s.advance d.length).ip.toNat = s.ip.toNat + d.length := advance_ip_toNat (by omega)
    rw [afterDesc_of_not_faults hfaults]
    refine ⟨?mem, ?ip, by simp [hfault], by simp [hfault], ?halted⟩
    case mem =>
      rw [executeDesc_mem]
      exact applyAccesses_wf _ hwf
    case ip =>
      rw [executeDesc_ip]
      cases jumpTarget d x (s.advance d.length) with
      | none => rw [Option.elim_none]; omega
      | some y => exact (zext9_toNat_le y).trans (by decide)
    case halted =>
      intro hset
      obtain rfl : d = .hlt := by simpa [executeDesc_halted, hhalted] using hset
      have hhlt : (executeDesc .hlt x (s.advance 1)).ip.toNat = s.ip.toNat + 1 := hnext
      simp only [Desc.length, Desc.mode, hhlt]
      omega

/-- The fault `InvalidOpcode` in a running state leaves a state that meets the invariant. -/
theorem takeInvalidOpcode_inv {s : State} (hrun : Running s) (hwf : s.mem.wf = true) :
    Inv (takeInvalidOpcode s) := by
  obtain ⟨-, hhalted, hip⟩ := hrun
  have hnext : (takeInvalidOpcode s).ip.toNat = s.ip.toNat + 1 := advance_ip_toNat (by omega)
  exact ⟨hwf, by omega, fun _ => ⟨hhalted, by omega⟩, by simp [takeInvalidOpcode],
    by simp [takeInvalidOpcode, hhalted]⟩

/-! ### The host's operations keep the invariant -/

/-- The invariant speaks of the memory, the pointer and the latches only, and of the memory only its
form. -/
theorem Inv.of_mem_change {s : State} {m : Memory} (h : Inv s) (hm : m.wf = true) :
    Inv { s with mem := m } :=
  { h with memWf := hm }

/-- Writing bytes keeps the canonical form. -/
theorem writeBytes_wf (p : List Byte) : ∀ (k : Nat) (s : State), s.mem.wf = true →
    (writeBytes k p s).mem.wf = true := by
  induction p with
  | nil => exact fun _ _ h => h
  | cons v rest ih => exact fun k s h => ih (k + 1) _ (memWrite_wf s _ v h)

/-! ### The obligations -/

/-- Settles O26: by the cases of a step over a decode ROM. -/
theorem everyRomKeepsInvariant : Obligations.EveryRomKeepsInvariant := by
  intro rom s hinv
  obtain ⟨-, hnext⟩ | ⟨hrun, -, hnext⟩ | ⟨hrun, e, -, hnext⟩ := stepWith_cases rom s <;> rw [hnext]
  · exact hinv
  · exact takeInvalidOpcode_inv hrun hinv.memWf
  · exact afterDesc_inv hrun hinv.memWf

/-- Settles O24: the step is the descriptor machine at the default decode ROM. -/
theorem stepKeepsInvariant : Obligations.StepKeepsInvariant := by
  intro s t hinv h
  obtain rfl := Host.Outcome.next.inj ((step_eq_stepWith s).symm.trans h)
  exact everyRomKeepsInvariant defaultRom s hinv

/-- Settles O25: no conditional part of the invariant applies at reset. -/
theorem invariantAtReset : Obligations.InvariantAtReset where
  memWf := reset_mem_wf
  ipLe := by decide
  invalidOpcode := by decide
  operandFetch := by decide
  halted := by decide

/-- Settles O27: by induction on how the state was reached. -/
theorem reachableStatesMeetInvariant : Obligations.ReachableStatesMeetInvariant := by
  intro s hreach
  induction hreach with
  | reset => exact invariantAtReset
  | load p s t _ hload ih =>
    obtain ⟨-, rfl⟩ := loadProgram_eq_ok_iff.mp hload
    rw [writeBytes_changes_only_mem]
    exact ih.of_mem_change (writeBytes_wf p _ s ih.memWf)
  | hostWrite addr v s _ ih => exact ih.of_mem_change (memWrite_wf s addr v ih.memWf)
  | step s t _ hstep ih => exact stepKeepsInvariant s t ih hstep

end Sys2Proof.Machine
end

section
/-! SUPPORT. What a step can change, by the descriptor of the opcode byte: registers (10_state.md R11), flags
(10 R18), memory (20_memory.md R31), the pointer (10 R14) and the latches (60_exceptions.md sections 1, 2
and 5). -/

namespace Sys2Proof

/-! ### The default decode ROM by byte -/

/-- The default decode ROM gives a bound byte the category of its range (30 R56). -/
theorem defaultRom_bound_of_range {op : Byte}
    (hop : 2 ≤ op.toNat ∧ op.toNat ≤ 0x31 ∨ op = 0x3E#8 ∨ op = 0x3F#8) :
    ∃ e, defaultRom op = some e ∧ HasCategoryOf op e.desc := by
  obtain ⟨-, hclass, hsource⟩ := defaultRom_meets_map_constraints
  exact Rom.entry_hasCategoryOf hclass hsource hop

/-- The default decode ROM binds no byte outside the ranges of 30 R56. -/
theorem defaultRom_unbound_of_range {op : Byte}
    (hop : op.toNat ≤ 1 ∨ 0x32 ≤ op.toNat ∧ op.toNat ≤ 0x3D ∨ 0x40 ≤ op.toNat) : defaultRom op = none := by
  obtain ⟨hunbound, -, -⟩ := defaultRom_meets_map_constraints
  exact Rom.eq_none_of_wfUnbound hunbound hop

/-- A byte is in a range of 30 R56 or outside all of them. -/
theorem bound_or_unbound_range (op : Byte) :
    (2 ≤ op.toNat ∧ op.toNat ≤ 0x31 ∨ op = 0x3E#8 ∨ op = 0x3F#8) ∨
      (op.toNat ≤ 1 ∨ 0x32 ≤ op.toNat ∧ op.toNat ≤ 0x3D ∨ 0x40 ≤ op.toNat) := by
  simp only [← BitVec.toNat_inj, BitVec.toNat_ofNat]
  omega

/-- Every entry of the default decode ROM has the category of its byte. -/
theorem defaultRom_hasCategoryOf {op : Byte} {e : RomEntry} (h : defaultRom op = some e) :
    HasCategoryOf op e.desc := by
  obtain hop | hop := bound_or_unbound_range op
  · obtain ⟨e', he', hcat⟩ := defaultRom_bound_of_range hop
    obtain rfl := Option.some.inj (h.symm.trans he')
    exact hcat
  · cases h.symm.trans (defaultRom_unbound_of_range hop)

/-- The bytes with an operand byte (30 R58). -/
theorem defaultRom_length_eq_two_iff : ∀ op : Byte, ∀ e ∈ defaultRom op,
    (e.desc.length = 2 ↔ 0x17 ≤ op.toNat ∧ op.toNat ≤ 0x19 ∨ 0x20 ≤ op.toNat ∧ op.toNat ≤ 0x28 ∨
      0x2B ≤ op.toNat ∧ op.toNat ≤ 0x30) := by
  decide

/-- The register that an action can write (10 R11). -/
def Desc.dest : Desc → Option Reg
  | .alu _ _ _ wb ra _ => if wb then some ra else none
  | .mov ra _ | .mvi ra | .load ra _ => some ra
  | _ => none

/-- The bytes that can write each register (10 R11). -/
theorem defaultRom_dest : ∀ op : Byte, ∀ e ∈ defaultRom op,
    (e.desc.dest = some .A → 0x02 ≤ op.toNat ∧ op.toNat ≤ 0x0D ∨
      op ∈ [0x10#8, 0x13#8, 0x16#8, 0x17#8, 0x18#8, 0x1A#8, 0x1B#8, 0x20#8, 0x23#8, 0x29#8]) ∧
    (e.desc.dest = some .B → op ∈ [0x11#8, 0x14#8, 0x1C#8, 0x1D#8, 0x21#8, 0x24#8]) ∧
    (e.desc.dest = some .C → op ∈ [0x12#8, 0x15#8, 0x1E#8, 0x1F#8, 0x22#8, 0x25#8]) := by
  decide

end Sys2Proof

namespace Sys2Proof.Machine

/-- The opcode byte is unbound in the default table exactly when the default decode ROM has no entry. -/
theorem defaultRom_eq_none_iff {s : State} : defaultRom (fetchOpcode s) = none ↔ UnboundAt s := by
  rw [unboundAt_iff]
  refine ⟨fun h => ?_, defaultRom_unbound_of_range⟩
  refine (bound_or_unbound_range (fetchOpcode s)).resolve_left fun hop => ?_
  obtain ⟨e, he, -⟩ := defaultRom_bound_of_range hop
  cases h.symm.trans he

/-- At the bytes of the conditional jumps the default decode ROM has a conditional jump on the flag that
`testedFlag` reads (30 R58). -/
theorem jcc_of_opcodeIn {s : State} (h : OpcodeIn s 0x2C 0x2F) :
    ∃ m f, defaultRom (fetchOpcode s) = some ⟨m, .jcc f⟩ ∧ testedFlag s = s.readFlag f := by
  have hop : fetchOpcode s = 0x2C#8 ∨ fetchOpcode s = 0x2D#8 ∨ fetchOpcode s = 0x2E#8 ∨
      fetchOpcode s = 0x2F#8 := by
    simp only [OpcodeIn] at h
    simp only [← BitVec.toNat_inj, BitVec.toNat_ofNat]
    omega
  obtain hop | hop | hop | hop := hop <;> simp [defaultRom, testedFlag, hop, State.readFlag]

/-- At no other byte has it a conditional jump. -/
theorem opcodeIn_of_jcc {s : State} {e : RomEntry} {f : Flag} (h : defaultRom (fetchOpcode s) = some e)
    (hd : e.desc = .jcc f) : OpcodeIn s 0x2C 0x2F := by
  obtain ⟨-, -, -, hjump, -⟩ := defaultRom_hasCategoryOf h
  have hrange := hjump.mp (by simp [hd, Desc.isJump])
  have hne : fetchOpcode s ≠ 0x2B#8 := by
    intro hop
    rw [hop] at h
    cases h
    cases hd
  rw [ne_eq, ← BitVec.toNat_inj, BitVec.toNat_ofNat] at hne
  exact ⟨by omega, hrange.2⟩

/-- A step over the operand byte happens exactly at a conditional jump whose flag is 0. -/
theorem skipsOperand_iff_tested {s : State} {e : RomEntry} (h : defaultRom (fetchOpcode s) = some e) :
    skipsOperand e.desc s = true ↔ OpcodeIn s 0x2C 0x2F ∧ testedFlag s = false := by
  constructor
  · intro hskip
    obtain ⟨f, hd, hf⟩ := skipsOperand_iff.mp hskip
    have hop := opcodeIn_of_jcc h hd
    obtain ⟨m, f', he, htested⟩ := jcc_of_opcodeIn hop
    obtain rfl := Option.some.inj (h.symm.trans he)
    cases hd
    exact ⟨hop, htested.trans hf⟩
  · rintro ⟨hop, hf⟩
    obtain ⟨m, f, he, htested⟩ := jcc_of_opcodeIn hop
    obtain rfl := Option.some.inj (h.symm.trans he)
    exact skipsOperand_iff.mpr ⟨f, rfl, htested.symm.trans hf⟩

/-! ### What an action leaves unchanged -/

/-- Only the actions of class ALU write flags (10 R18). -/
theorem executeDesc_flags {d : Desc} (hd : d.isAlu = false) (x : Byte) (s : State) :
    (executeDesc d x s).flags = s.flags := by
  cases d with
  | alu => cases hd
  | jcc f => by_cases hf : s.readFlag f <;> simp [executeDesc, hf]
  | _ => simp [executeDesc]

/-- An action writes no register but its destination. -/
theorem executeDesc_readReg {d : Desc} {r : Reg} (hd : d.dest ≠ some r) (x : Byte) (s : State) :
    (executeDesc d x s).readReg r = s.readReg r := by
  cases d with
  | jcc f => by_cases hf : s.readFlag f <;> simp [executeDesc, hf]
  | alu m fn cin wb ra rb => cases wb <;> simp_all [executeDesc, Desc.dest]
  | mov | mvi | load => simp_all [executeDesc, Desc.dest]
  | _ => simp [executeDesc]

/-- Accesses that do not write an address leave its byte unchanged. -/
theorem applyAccesses_memRead {y : Byte} : ∀ (l : List Access) (s : State), (∀ v, .write y v ∉ l) →
    (applyAccesses l s).memRead y = s.memRead y
  | [], _, _ => rfl
  | .read _ :: rest, s, h => applyAccesses_memRead rest s fun v hv => h v (.tail _ hv)
  | .write z w :: rest, s, h => by
    have hne : y ≠ z := fun hyz => h w (by simp [hyz])
    rw [applyAccesses, applyAccesses_memRead rest _ fun v hv => h v (.tail _ hv),
      memRead_memWrite_ne s z w y hne]

/-- An action writes no byte of memory but that of its data access. -/
theorem executeDesc_memRead {d : Desc} {x y : Byte} {s : State} (h : ∀ v, .write y v ∉ dataAccess d x s) :
    (executeDesc d x s).memRead y = s.memRead y := by
  rw [memRead_congr (executeDesc_mem d x s), applyAccesses_memRead _ s h]

/-! ### What an instruction leaves unchanged -/

theorem afterDesc_flags {d : Desc} (hd : d.isAlu = false) (x : Byte) (s : State) :
    (afterDesc d x s).flags = s.flags := by
  unfold afterDesc
  split
  · rfl
  · rw [executeDesc_flags hd, advance_flags]

theorem afterDesc_readReg {d : Desc} {r : Reg} (hd : d.dest ≠ some r) (x : Byte) (s : State) :
    (afterDesc d x s).readReg r = s.readReg r := by
  unfold afterDesc
  split
  · rw [raise_readReg, advance_readReg]
  · rw [executeDesc_readReg hd, advance_readReg]

/-- The latch `fault` after an instruction in a state without a fault. -/
theorem afterDesc_fault {d : Desc} {x : Byte} {s : State} (hs : s.fault = none) :
    (afterDesc d x s).fault = if operandFaults d s then some .operandFetch else none := by
  unfold afterDesc
  split
  · exact raise_fault _ _
  · rw [executeDesc_fault, advance_fault, hs]

/-! ### The operand byte and the pointer -/

/-- Every instruction has one byte or two. -/
theorem desc_length_cases (d : Desc) : d.length = 1 ∨ d.length = 2 := by
  cases h : d.mode <;> simp [Desc.length, h]

/-- An instruction needs its operand byte when it has one and does not step over it. -/
theorem needsOperand_iff {d : Desc} {s : State} :
    needsOperand d s = true ↔ d.length = 2 ∧ skipsOperand d s = false := by
  cases h : d.mode <;> simp [needsOperand, Desc.length, h]

/-- The operand fetch of a running state faults exactly when the needed operand byte lies past the last
cell. -/
theorem operandFaults_iff {d : Desc} {s : State} (hip : s.ip.toNat ≤ 255) :
    operandFaults d s = true ↔ needsOperand d s = true ∧ s.ip.toNat = 255 := by
  rw [operandFaults, Bool.and_eq_true, advance_one_outOfMemory s hip, decide_eq_true_eq]

/-- The byte after the opcode byte, where there is one. -/
theorem fetchNextByte_eq {s : State} (hip : s.ip.toNat ≤ 254) :
    fetchNextByte s = s.memRead (s.ipByte + 1#8) := by
  have hmem : (s.advance 1).outOfMemory = false := by
    rw [advance_one_outOfMemory s (by omega), decide_eq_false_iff_not]
    omega
  simp [fetchNextByte, hmem]

@[simp] theorem jumpTarget_advance (d : Desc) (x : Byte) (s : State) (n : Nat) :
    jumpTarget d x (s.advance n) = jumpTarget d x s := by
  cases d <;> simp [jumpTarget]

/-- The pointer after an instruction in a running state (10 R14). -/
theorem afterDesc_ip_toNat {d : Desc} {x : Byte} {s : State} (hip : s.ip.toNat ≤ 255) :
    (afterDesc d x s).ip.toNat = if needsOperand d s = true ∧ s.ip.toNat = 255 then 256
      else (jumpTarget d x s).elim (s.ip.toNat + d.length) BitVec.toNat := by
  cases hfaults : operandFaults d s with
  | true =>
    have hend := (operandFaults_iff hip).mp hfaults
    rw [afterDesc_of_faults hfaults, if_pos hend, raise_ip, advance_ip_toNat (by omega), hend.2]
  | false =>
    have hlen := desc_length_cases d
    have hfits : ¬ (needsOperand d s = true ∧ s.ip.toNat = 255) := by
      rw [← operandFaults_iff hip, hfaults]
      decide
    rw [afterDesc_of_not_faults hfaults, if_neg hfits, executeDesc_ip, jumpTarget_advance]
    cases jumpTarget d x s with
    | none => exact advance_ip_toNat (by omega)
    | some y => exact zext9_toNat y

/-- Only jumps, calls and returns move the pointer elsewhere than past the instruction. -/
theorem jumpTarget_eq_none {d : Desc} (hjump : d.isJump = false) (hsub : ¬ (d = .call ∨ d = .ret)) (x : Byte)
    (s : State) : jumpTarget d x s = none := by
  cases d <;> simp_all [jumpTarget, Desc.isJump]

/-! ### What a step can change -/

/-- A step that changes a flag executes an instruction of class ALU. -/
theorem alu_of_flags_changed {s t : State} (h : step s = .next t) (hne : t.flags ≠ s.flags) :
    Running s ∧ ∃ e, defaultRom (fetchOpcode s) = some e ∧ e.desc.isAlu = true := by
  obtain ⟨-, rfl⟩ | ⟨-, -, rfl⟩ | ⟨hrun, e, he, rfl⟩ := step_desc_cases h
  · exact absurd rfl hne
  · exact absurd rfl hne
  · exact ⟨hrun, e, he, by_contra fun hd => hne (afterDesc_flags (by simpa using hd) _ s)⟩

/-- A step that changes a register executes an instruction with that destination. -/
theorem dest_of_reg_changed {s t : State} {r : Reg} (h : step s = .next t)
    (hne : t.readReg r ≠ s.readReg r) :
    Running s ∧ ∃ e ∈ defaultRom (fetchOpcode s), e.desc.dest = some r := by
  obtain ⟨-, rfl⟩ | ⟨-, -, rfl⟩ | ⟨hrun, e, he, rfl⟩ := step_desc_cases h
  · exact absurd rfl hne
  · exact absurd (by simp [takeInvalidOpcode]) hne
  · exact ⟨hrun, e, he, by_contra fun hd => hne (afterDesc_readReg hd _ s)⟩

/-- A step that changes a byte of memory completes an instruction whose data access writes it. -/
theorem write_of_mem_changed {s t : State} {y : Byte} (h : step s = .next t)
    (hne : t.memRead y ≠ s.memRead y) :
    Running s ∧ ∃ e, defaultRom (fetchOpcode s) = some e ∧ operandFaults e.desc s = false ∧
      ∃ v, .write y v ∈ dataAccess e.desc (fetchNextByte s) (s.advance e.desc.length) := by
  obtain ⟨-, rfl⟩ | ⟨-, -, rfl⟩ | ⟨hrun, e, he, rfl⟩ := step_desc_cases h
  · exact absurd rfl hne
  · exact absurd rfl hne
  · cases hfaults : operandFaults e.desc s with
    | true =>
      rw [afterDesc_of_faults hfaults] at hne
      exact absurd rfl hne
    | false =>
      rw [afterDesc_of_not_faults hfaults] at hne
      exact ⟨hrun, e, he, hfaults, by_contra fun hw => hne (executeDesc_memRead (not_exists.mp hw))⟩

/-! ### The obligations on the frame of a step -/

/-- Settles O19: the bytes of class ALU are those of its range. -/
theorem onlyAluOpcodesChangeFlags : Obligations.OnlyAluOpcodesChangeFlags := by
  intro s t h hne
  obtain ⟨hrun, e, he, halu⟩ := alu_of_flags_changed h hne
  obtain ⟨hrange, -⟩ := defaultRom_hasCategoryOf he
  exact ⟨hrun, hrange.mp halu⟩

/-- Settles O20: by the destinations that the default decode ROM lists. -/
theorem registerWriters : Obligations.RegisterWriters := by
  intro s t h
  refine ⟨fun hne => ?a, fun hne => ?b, fun hne => ?c⟩
  case a =>
    obtain ⟨hrun, e, he, hdest⟩ := dest_of_reg_changed (r := .A) h hne
    obtain ⟨hwrites, -, -⟩ := defaultRom_dest _ e he
    exact ⟨hrun, hwrites hdest⟩
  case b =>
    obtain ⟨hrun, e, he, hdest⟩ := dest_of_reg_changed (r := .B) h hne
    obtain ⟨-, hwrites, -⟩ := defaultRom_dest _ e he
    exact ⟨hrun, hwrites hdest⟩
  case c =>
    obtain ⟨hrun, e, he, hdest⟩ := dest_of_reg_changed (r := .C) h hne
    obtain ⟨-, -, hwrites⟩ := defaultRom_dest _ e he
    exact ⟨hrun, hwrites hdest⟩

/-- Settles O16: a step that latches a fault is the entry of a fault after the opcode fetch. -/
theorem faultEntryIsPrecise : Obligations.FaultEntryIsPrecise := by
  intro s t f h hs ht
  obtain ⟨-, rfl⟩ | ⟨-, -, rfl⟩ | ⟨-, e, -, rfl⟩ := step_desc_cases h
  · cases hs.symm.trans ht
  · obtain rfl := Option.some.inj ((raise_fault _ .invalidOpcode).symm.trans ht)
    exact raise_after_opcode_faultEntry s _
  · rw [afterDesc_fault hs] at ht
    split at ht
    next hfaults =>
      cases ht
      rw [afterDesc_of_faults hfaults]
      exact raise_after_opcode_faultEntry s _
    next => cases ht

end Sys2Proof.Machine
end

section
/-! SUPPORT. The pointer and the latches after a step (10_state.md R14; 60_exceptions.md sections 1 and 2) and
what reads the flags (10_state.md section 3). -/

namespace Sys2Proof.Machine

/-! ### Memory writes -/

/-- How a store gets its address: `none` from the operand byte, a register from its content (42 R130). -/
def storeAddr : Desc → Option (Option Reg)
  | .store _ rb => some rb
  | _ => none

/-- The bytes of the instructions that write memory, with the form of a store's address (30 R58). -/
theorem defaultRom_memoryWriters : ∀ op : Byte, ∀ e ∈ defaultRom op,
    (storeAddr e.desc = none ∨
      (0x26 ≤ op.toNat ∧ op.toNat ≤ 0x28) ∧ storeAddr e.desc = some none ∨
      op = 0x2A#8 ∧ storeAddr e.desc = some (some .C)) ∧
    (e.desc = .call → op = 0x30#8) := by
  decide

/-- A data access that writes is that of a store or of `CALL`. -/
theorem write_mem_dataAccess {d : Desc} {x y v : Byte} {s : State} (h : .write y v ∈ dataAccess d x s) :
    (∃ rb, storeAddr d = some rb ∧ y = effectiveAddr s rb x) ∨ d = .call ∧ y = Config.retSlot := by
  cases d <;> simp_all [dataAccess, storeAddr]

/-- A store through the operand byte needs it. -/
theorem needsOperand_of_storeAddr {d : Desc} (h : storeAddr d = some none) (s : State) :
    needsOperand d s = true := by
  cases d <;> simp_all [storeAddr, needsOperand, Desc.mode, skipsOperand]

/-- Settles O21: the data accesses that write are those of the stores and of `CALL`. -/
theorem memoryWriters : Obligations.MemoryWriters := by
  intro s t x h hne
  obtain ⟨hrun, e, he, hfaults, v, hv⟩ := write_of_mem_changed h hne
  obtain ⟨hstores, hcalls⟩ := defaultRom_memoryWriters _ e he
  obtain ⟨-, -, hip⟩ := id hrun
  refine ⟨hrun, ?_⟩
  obtain ⟨rb, haddr, rfl⟩ | ⟨hcall, rfl⟩ := write_mem_dataAccess hv
  · obtain hno | ⟨hop, hform⟩ | ⟨hop, hform⟩ := hstores
    · cases hno.symm.trans haddr
    · obtain rfl := Option.some.inj (haddr.symm.trans hform)
      have hneeds := needsOperand_of_storeAddr haddr s
      have hlt : s.ip.toNat ≤ 254 := by
        rw [← Bool.not_eq_true, operandFaults_iff hip] at hfaults
        grind
      exact .inl ⟨hop, fetchNextByte_eq hlt⟩
    · obtain rfl := Option.some.inj (haddr.symm.trans hform)
      exact .inr (.inl ⟨hop, rfl⟩)
  · exact .inr (.inr ⟨hcalls hcall, rfl⟩)

/-! ### The obligations on the latches and the pointer -/

/-- Settles O15: an unbound byte takes the one fault, and an instruction that needs its operand byte at the last
cell the other. -/
theorem faultLatchIsSetExactlyBy : Obligations.FaultLatchIsSetExactlyBy := by
  intro s t h hs
  obtain ⟨hterm, rfl⟩ | ⟨hrun, hrom, rfl⟩ | ⟨hrun, e, he, rfl⟩ := step_desc_cases h
  case inl =>
    have hstopped : ¬ Running t := by rw [← terminal_eq_false_iff, hterm]; decide
    simp [hs, hstopped]
  case inr.inl =>
    have hunbound := defaultRom_eq_none_iff.mp hrom
    have hrange := unboundAt_iff.mp hunbound
    refine ⟨iff_of_true rfl ⟨hrun, hunbound⟩, iff_of_false (by simp [takeInvalidOpcode]) ?_⟩
    rintro ⟨-, -, hop⟩
    simp only [OpcodeIn] at hop
    omega
  case inr.inr =>
    have hbound : ¬ UnboundAt s := by
      rw [← defaultRom_eq_none_iff, he]
      exact Option.some_ne_none e
    have hfaults : operandFaults e.desc s = true ↔ s.ip = 0xFF#9 ∧
        (OpcodeIn s 0x17 0x19 ∨ OpcodeIn s 0x20 0x28 ∨ OpcodeIn s 0x2B 0x2B ∨ OpcodeIn s 0x30 0x30 ∨
          OpcodeIn s 0x2C 0x2F ∧ testedFlag s = true) := by
      obtain ⟨-, -, hip⟩ := id hrun
      rw [operandFaults_iff hip, needsOperand_iff, defaultRom_length_eq_two_iff _ e he,
        ← Bool.not_eq_true, skipsOperand_iff_tested he, ← Bool.not_eq_true, ← BitVec.toNat_inj]
      simp only [OpcodeIn, BitVec.toNat_ofNat]
      grind
    rw [afterDesc_fault hs, ← hfaults]
    split <;> simp_all

/-- Away from the bytes 0x2B to 0x31 the pointer goes past the instruction. -/
theorem sequential_of_range {op : Byte} {e : RomEntry} (h : defaultRom op = some e)
    (hop : op.toNat < 0x2B ∨ 0x31 < op.toNat) (x : Byte) (s : State) :
    jumpTarget e.desc x s = none ∧ skipsOperand e.desc s = false := by
  obtain ⟨-, -, -, hjump, hsub, -⟩ := defaultRom_hasCategoryOf h
  have hjump' : e.desc.isJump = false := by
    rw [← Bool.not_eq_true, hjump]
    omega
  have hsub' : ¬ (e.desc = .call ∨ e.desc = .ret) := by
    rw [hsub, ← BitVec.toNat_inj, ← BitVec.toNat_inj, BitVec.toNat_ofNat, BitVec.toNat_ofNat]
    omega
  refine ⟨jumpTarget_eq_none hjump' hsub' x s, ?_⟩
  rw [← Bool.not_eq_true, skipsOperand_iff]
  rintro ⟨f, hd, -⟩
  rw [hd] at hjump'
  cases hjump'

/-- The pointer after a step at a bound byte. -/
theorem step_ip_toNat {s : State} {e : RomEntry} (hrun : Running s)
    (he : defaultRom (fetchOpcode s) = some e) :
    (stepWith defaultRom s).1.ip.toNat = if needsOperand e.desc s = true ∧ s.ip.toNat = 255 then 256
      else (jumpTarget e.desc (fetchNextByte s) s).elim (s.ip.toNat + e.desc.length) BitVec.toNat := by
  rw [stepWith_bound hrun he]
  obtain ⟨-, -, hip⟩ := hrun
  exact afterDesc_ip_toNat hip

/-- The pointer after a step at a bound byte away from 0x2B to 0x31. -/
theorem step_ip_sequential {s : State} {e : RomEntry} (hrun : Running s)
    (he : defaultRom (fetchOpcode s) = some e)
    (hop : (fetchOpcode s).toNat < 0x2B ∨ 0x31 < (fetchOpcode s).toNat) :
    (stepWith defaultRom s).1.ip.toNat =
      if e.desc.length = 2 ∧ s.ip.toNat = 255 then 256 else s.ip.toNat + e.desc.length := by
  obtain ⟨htarget, hskip⟩ := sequential_of_range he hop (fetchNextByte s) s
  simp only [step_ip_toNat hrun he, htarget, Option.elim_none, needsOperand_iff, hskip, and_true]

/-- The pointer after a step that needs its operand byte and jumps there. -/
theorem step_ip_jump {s : State} {e : RomEntry} (hrun : Running s)
    (he : defaultRom (fetchOpcode s) = some e) (hneeds : needsOperand e.desc s = true)
    (htarget : ∀ x, jumpTarget e.desc x s = some x) :
    (stepWith defaultRom s).1.ip.toNat =
      if s.ip.toNat = 0xFF then 0x100 else (s.memRead (s.ipByte + 1#8)).toNat := by
  rw [step_ip_toNat hrun he, htarget, Option.elim_some, hneeds]
  obtain ⟨-, -, hip⟩ := hrun
  by_cases hend : s.ip.toNat = 255
  · simp [hend]
  · rw [if_neg (by simp [hend]), if_neg hend, fetchNextByte_eq (by omega)]

theorem ipByte_toNat (s : State) : s.ipByte.toNat = s.ip.toNat % 256 := BitVec.toNat_setWidth 8 s.ip

/-- What `CALL` leaves in the return slot (44 R151, decision D13). -/
theorem callAction_retSlot {s : State} (x : Byte) (hip : s.ip.toNat ≤ 255) (hwf : s.mem.wf = true) :
    ((callAction x (s.advance 2)).memRead 0xFF#8).toNat = (s.ip.toNat + 2) % 256 := by
  rw [callAction_memRead x (s.advance 2) _ hwf, if_pos rfl, ipByte_toNat, advance_ip_toNat (by omega)]

/-- A one-point range of opcode bytes. -/
theorem fetchOpcode_eq_of_opcodeIn {s : State} {k : Nat} (h : OpcodeIn s k k) :
    fetchOpcode s = BitVec.ofNat 8 k := by
  obtain ⟨hlo, hhi⟩ := h
  rw [← Nat.le_antisymm hhi hlo, BitVec.ofNat_toNat, BitVec.setWidth_eq]

/-- Settles O18: by the pointer rule, with the length and the target of each class. -/
theorem pointerAfterStep : Obligations.PointerAfterStep := by
  intro s hrun
  have hcall (hop : OpcodeIn s 0x30 0x30) : defaultRom (fetchOpcode s) = some ⟨"CALL", .call⟩ := by
    rw [fetchOpcode_eq_of_opcodeIn hop]
    rfl
  refine ⟨_, step_eq_stepWith s, fun hop => ?oneByte, fun hop => ?twoByte, fun hop => ?jump, fun hop => ?skip,
    fun hop => ⟨fun hend => ?callFault, fun hend => ⟨?call, fun hwf => ?slot⟩⟩, fun hop => ?ret,
    fun hop => ?unbound⟩
  case oneByte =>
    simp only [OpcodeIn] at hop
    obtain ⟨e, he, -⟩ := defaultRom_bound_of_range (op := fetchOpcode s) (by bv_omega)
    have hlen := defaultRom_length_eq_two_iff _ e he
    have hone : e.desc.length = 1 := (desc_length_cases e.desc).resolve_right (by omega)
    rw [step_ip_sequential hrun he (by omega), hone, if_neg (by omega)]
  case twoByte =>
    simp only [OpcodeIn] at hop
    obtain ⟨e, he, -⟩ := defaultRom_bound_of_range (op := fetchOpcode s) (by omega)
    have htwo : e.desc.length = 2 := (defaultRom_length_eq_two_iff _ e he).mpr (by omega)
    simp only [step_ip_sequential hrun he (by omega), htwo, true_and]
  case jump =>
    obtain hop | ⟨hop, htaken⟩ := hop
    · have he : defaultRom (fetchOpcode s) = some ⟨"JMP", .jmp⟩ := by rw [fetchOpcode_eq_of_opcodeIn hop]; rfl
      exact step_ip_jump hrun he rfl fun _ => rfl
    · obtain ⟨m, f, he, hf⟩ := jcc_of_opcodeIn hop
      rw [htaken] at hf
      exact step_ip_jump hrun he (by simp [needsOperand, Desc.mode, skipsOperand, ← hf])
        fun x => by simp [jumpTarget, ← hf]
  case skip =>
    obtain ⟨hop, hnot⟩ := hop
    obtain ⟨m, f, he, hf⟩ := jcc_of_opcodeIn hop
    rw [hnot] at hf
    simp [step_ip_toNat hrun he, needsOperand, skipsOperand, jumpTarget, Desc.length, Desc.mode, ← hf]
  case callFault => rw [step_ip_jump hrun (hcall hop) rfl fun _ => rfl, if_pos hend]
  case call => rw [step_ip_jump hrun (hcall hop) rfl fun _ => rfl, if_neg hend]
  case slot =>
    rw [stepWith_bound hrun (hcall hop)]
    obtain ⟨-, -, hip⟩ := hrun
    have hfaults : operandFaults .call s = false := by
      rw [← Bool.not_eq_true, operandFaults_iff hip]
      exact fun ⟨_, hat⟩ => hend hat
    rw [afterDesc_of_not_faults hfaults]
    exact callAction_retSlot _ hip hwf
  case ret =>
    have he : defaultRom (fetchOpcode s) = some ⟨"RET", .ret⟩ := by rw [fetchOpcode_eq_of_opcodeIn hop]; rfl
    simp [step_ip_toNat hrun he, needsOperand, jumpTarget, Desc.mode]
  case unbound =>
    rw [stepWith_unbound hrun (defaultRom_eq_none_iff.mpr hop)]
    obtain ⟨-, -, hip⟩ := hrun
    exact advance_ip_toNat (by omega)

/-- A state calls for `Halted` exactly when no fault is latched and `halted` is set (60 R166). -/
theorem status_halted_iff (s : State) : status s = .halted ↔ s.fault = none ∧ s.halted = true := by
  unfold status
  cases s.fault <;> cases s.halted <;> cases s.outOfMemory <;> simp

/-- How the pointer of a running state gets past the last cell without a fault: a one-byte instruction there, a
two-byte one at the last two cells, or a conditional jump not taken there. -/
theorem exhausted_cases {s t : State} (hrun : Running s) (h : step s = .next t) (hfault : t.fault = none)
    (hlt : 255 < t.ip.toNat) : ∃ i, fetchInstr s = .ok i ∧
      (t.ip = 256#9 ∧ (s.ip = 0xFF#9 ∧ i.length = 1 ∨ s.ip = 0xFE#9 ∧ i.length = 2) ∨
        t.ip = 257#9 ∧ s.ip = 0xFF#9 ∧ OpcodeIn s 0x2C 0x2F ∧ testedFlag s = false) := by
  obtain ⟨hterm, -⟩ | ⟨-, -, rfl⟩ | ⟨-, e, he, rfl⟩ := step_desc_cases h
  · cases hterm.symm.trans ((terminal_eq_false_iff s).mpr hrun)
  · cases hfault
  obtain ⟨hs, -, hip⟩ := hrun
  obtain ⟨i, hi, -, hlen⟩ := decodeOp_ok_of_bound he (fetchNextByte s)
  refine ⟨i, (fetchInstr_eq s).trans hi, ?_⟩
  have hfits : ¬ (needsOperand e.desc s = true ∧ s.ip.toNat = 255) := by
    rw [afterDesc_fault hs] at hfault
    rw [← operandFaults_iff hip]
    intro hfaults
    simp [hfaults] at hfault
  have hnext := afterDesc_ip_toNat (d := e.desc) (x := fetchNextByte s) hip
  rw [if_neg hfits] at hnext
  have hseq : jumpTarget e.desc (fetchNextByte s) s = none := by
    cases htarget : jumpTarget e.desc (fetchNextByte s) s with
    | none => rfl
    | some y =>
      have hy := y.isLt
      rw [htarget, Option.elim_some] at hnext
      omega
  rw [hseq, Option.elim_none] at hnext
  rw [hlen]
  simp only [← BitVec.toNat_inj, BitVec.toNat_ofNat]
  obtain hone | htwo := desc_length_cases e.desc
  · exact .inl ⟨by omega, .inl ⟨by omega, hone⟩⟩
  · by_cases hend : s.ip.toNat = 255
    · have hskip : skipsOperand e.desc s = true := by
        rw [needsOperand_iff] at hfits
        simpa [htwo, hend] using hfits
      exact .inr ⟨by omega, by omega, (skipsOperand_iff_tested he).mp hskip⟩
    · exact .inl ⟨by omega, .inr ⟨by omega, htwo⟩⟩

/-- Settles O17: by the order of the tests of a state's result, and by the pointer rule for the list of
cases. -/
theorem normalEnds : Obligations.NormalEnds := by
  intro s t hrun h
  obtain ⟨hfault, hhalted, hip⟩ := id hrun
  have hset : t.halted = true ↔ fetchOpcode s = 0x3F#8 := by
    rw [step_sets_halted_iff h hhalted, and_iff_right hrun]
  have hclear : t.halted = true → t.fault = none := by
    intro ht
    cases htf : t.fault with
    | none => rfl
    | some f =>
      obtain ⟨-, -, -, -, -, hkeep⟩ := faultEntryIsPrecise s t f h hfault htf
      rw [hkeep, hhalted] at ht
      cases ht
  have hstable (hend : status t ≠ .continuing) : step t = .next t :=
    step_terminal ((status_ne_continuing_iff t).mp hend)
  refine ⟨?halted, fun hend => ?haltedStable, fun hend => ?exhausted, fun hf hh hlt => ?exhaustedWhen⟩
  case halted => rw [status_halted_iff, ← hset, and_iff_right_of_imp hclear]
  case haltedStable =>
    obtain ⟨hf, -⟩ := (status_halted_iff t).mp hend
    exact ⟨hf, hstable (by simp [hend])⟩
  case exhausted =>
    obtain ⟨hf, hh, hlt⟩ := (status_addressExhausted_iff t).mp hend
    exact ⟨hf, hh, hstable (by simp [hend]), exhausted_cases hrun h hf hlt⟩
  case exhaustedWhen => exact (status_addressExhausted_iff t).mpr ⟨hf, hh, hlt⟩

/-! ### The flags -/

theorem writeReg_setFlags (s : State) (r : Reg) (v : Byte) (f : Flags) :
    (s.setFlags f).writeReg r v = (s.writeReg r v).setFlags f := by
  cases r <;> rfl

theorem aluOperand2_setFlags (s : State) (m : Mode) (rb : Option Reg) (x : Byte) (f : Flags) :
    aluOperand2 (s.setFlags f) m rb x = aluOperand2 s m rb x := by
  cases rb <;> simp [aluOperand2]

theorem effectiveAddr_setFlags (s : State) (rb : Option Reg) (x : Byte) (f : Flags) :
    effectiveAddr (s.setFlags f) rb x = effectiveAddr s rb x := by
  cases rb <;> simp [effectiveAddr]

/-- An action that is no conditional jump reads no flag: from two states that differ in the flags only it makes
the same state, with all flags written, or states that differ as before. -/
theorem executeDesc_setFlags {d : Desc} (hd : ∀ f, d ≠ .jcc f) (x : Byte) (s : State) (f : Flags) :
    executeDesc d x (s.setFlags f) =
      if d.isAlu = true then executeDesc d x s else (executeDesc d x s).setFlags f := by
  cases d with
  | jcc f => exact absurd rfl (hd f)
  | alu m fn cin wb ra rb =>
    cases wb <;> simp [executeDesc, aluAction, Desc.isAlu, aluOperand2_setFlags, writeReg_setFlags] <;> rfl
  | mov | mvi | load | store =>
    simp [executeDesc, movAction, mviAction, loadAction, storeAction, Desc.isAlu, effectiveAddr_setFlags,
      writeReg_setFlags] <;> rfl
  | _ => rfl

/-- The same of an instruction, the fault of its operand fetch included. -/
theorem afterDesc_setFlags {d : Desc} (hd : ∀ f, d ≠ .jcc f) (x : Byte) (s : State) (f : Flags) :
    afterDesc d x (s.setFlags f) =
      if d.isAlu = true ∧ operandFaults d s = false then afterDesc d x s else (afterDesc d x s).setFlags f := by
  have hfaults : operandFaults d (s.setFlags f) = operandFaults d s := by
    cases d with
    | jcc f => exact absurd rfl (hd f)
    | _ => rfl
  have hadvance (n : Nat) : (s.setFlags f).advance n = (s.advance n).setFlags f := rfl
  cases h : operandFaults d s with
  | true =>
    rw [afterDesc_of_faults h, afterDesc_of_faults (hfaults.trans h), if_neg (by simp), hadvance]
    rfl
  | false =>
    rw [afterDesc_of_not_faults h, afterDesc_of_not_faults (hfaults.trans h), hadvance,
      executeDesc_setFlags hd]
    simp

/-- Two running or stopped states that differ in the flags only, stepped at another byte than those of the
conditional jumps: one next state for both, or two that differ as before and no ALU instruction executed. -/
theorem step_setFlags {s t u : State} {f : Flags} (hop : ¬ OpcodeIn s 0x2C 0x2F) (ht : step s = .next t)
    (hu : step (s.setFlags f) = .next u) :
    u = t ∨ u = t.setFlags f ∧ t.flags = s.flags ∧
      (Running s → OpcodeIn s 0x02 0x19 → t.fault ≠ none) := by
  obtain rfl := Host.Outcome.next.inj ((step_eq_stepWith _).symm.trans hu)
  obtain ⟨hterm, rfl⟩ | ⟨hrun, hrom, rfl⟩ | ⟨hrun, e, he, rfl⟩ := step_desc_cases ht
  · rw [stepWith_terminal defaultRom (s := t.setFlags f) hterm]
    exact .inr ⟨rfl, rfl, fun hrun => absurd ((terminal_eq_false_iff t).mpr hrun) (by simp [hterm])⟩
  · rw [stepWith_unbound (s := s.setFlags f) hrun hrom]
    exact .inr ⟨rfl, rfl, fun _ _ => Option.some_ne_none _⟩
  · have hjcc : ∀ g, e.desc ≠ .jcc g := fun g hd => hop (opcodeIn_of_jcc he hd)
    have hnext : fetchNextByte (s.setFlags f) = fetchNextByte s := rfl
    rw [stepWith_bound (s := s.setFlags f) hrun he, hnext, afterDesc_setFlags hjcc]
    obtain ⟨hs, -, -⟩ := hrun
    obtain ⟨halu, -⟩ := defaultRom_hasCategoryOf he
    split
    · exact .inl rfl
    next hcond =>
      refine .inr ⟨rfl, ?flags, fun _ hrange hnone => hcond ⟨halu.mpr hrange, ?completes⟩⟩
      case flags =>
        rw [not_and_or, Bool.not_eq_true, Bool.not_eq_false] at hcond
        obtain hno | hfaults := hcond
        · exact afterDesc_flags hno _ s
        · rw [afterDesc_of_faults hfaults]
          rfl
      case completes => simpa [afterDesc_fault hs] using hnone

/-- Settles O22: an instruction that is no conditional jump reads no flag, and class ALU writes all four. -/
theorem onlyConditionalJumpsReadFlags : Obligations.OnlyConditionalJumpsReadFlags := by
  intro s t u f hop ht hu
  obtain rfl | ⟨rfl, hflags, hfault⟩ := step_setFlags hop ht hu
  · exact ⟨fun _ _ => rfl, rfl, ⟨rfl, rfl⟩, fun _ => rfl, .inl rfl, fun _ _ _ => rfl⟩
  · exact ⟨fun r _ => setFlags_readReg t f r, rfl, ⟨rfl, rfl⟩, fun _ => rfl, .inr ⟨hflags, rfl⟩,
      fun hrun halu hnone => absurd hnone (hfault hrun halu)⟩

end Sys2Proof.Machine
end

section
/-! SUPPORT. The memory accesses of a step (20_memory.md R31, R40; 70_reset_and_hazards.md R194). -/

namespace Sys2Proof.Machine

/-! ### The accesses of a step over a decode ROM -/

/-- The data access of an instruction that does not need its operand byte is the same whatever the byte is. -/
theorem dataAccess_congr_operand {d : Desc} {x y : Byte} {s : State} (h : needsOperand d s = true → x = y) :
    dataAccess d x s = dataAccess d y s := by
  by_cases hneeds : needsOperand d s = true
  · rw [h hneeds]
  · cases d with
    | load ra rb | store ra rb =>
      cases rb <;> simp_all [needsOperand, Desc.mode, skipsOperand, dataAccess, effectiveAddr]
    | _ => rfl

/-- The operand read happens exactly when the operand byte is needed and lies in memory. -/
theorem operandAccess_eq (d : Desc) (s : State) :
    operandAccess d (s.advance 1) =
      if needsOperand d s = true ∧ operandFaults d s = false then [.read (s.ipByte + 1#8)] else [] := by
  have hread : operandAccess d (s.advance 1) = if d.mode = .none ∨ skipsOperand d s = true ∨
      (s.advance 1).outOfMemory = true then [] else [.read (s.ipByte + 1#8)] := by
    cases hm : d.mode <;> simp [operandAccess, hm]
  rw [hread, ← ite_not]
  refine if_congr ?_ rfl rfl
  simp only [operandFaults, needsOperand]
  grind

/-- The accesses of a step at an unbound byte. -/
theorem stepAccesses_unbound {rom : Rom} {s : State} (hrun : Running s) (h : rom (fetchOpcode s) = none) :
    stepAccesses rom s = [.read s.ipByte] := by
  simp [stepAccesses, (terminal_eq_false_iff s).mpr hrun, h]

/-- The accesses of a step whose operand fetch faults. -/
theorem stepAccesses_of_faults {rom : Rom} {s : State} {e : RomEntry} (hrun : Running s)
    (h : rom (fetchOpcode s) = some e) (hfaults : operandFaults e.desc s = true) :
    stepAccesses rom s = [.read s.ipByte] := by
  simp [stepAccesses, (terminal_eq_false_iff s).mpr hrun, h, operandAccess_eq, fetchOperand_of_faults hfaults,
    hfaults]

/-- The accesses of a step that completes an instruction: the opcode, the operand byte where it is needed, and
the data access. -/
theorem stepAccesses_of_not_faults {rom : Rom} {s : State} {e : RomEntry} (hrun : Running s)
    (h : rom (fetchOpcode s) = some e) (hfaults : operandFaults e.desc s = false) :
    stepAccesses rom s = .read s.ipByte ::
      ((if needsOperand e.desc s = true then [.read (s.ipByte + 1#8)] else []) ++
        dataAccess e.desc (fetchNextByte s) (s.advance e.desc.length)) := by
  obtain ⟨x, hfetch, hx⟩ := fetchOperand_of_not_faults hfaults
  have hdata : dataAccess e.desc x (s.advance e.desc.length) =
      dataAccess e.desc (fetchNextByte s) (s.advance e.desc.length) :=
    dataAccess_congr_operand (by simpa using hx)
  simp [stepAccesses, (terminal_eq_false_iff s).mpr hrun, h, operandAccess_eq, hfetch, hdata, hfaults]

/-! ### The accesses and the memory under every decode ROM -/

/-- An access writes. -/
def Access.isWrite : Access → Bool
  | .write .. => true
  | .read _ => false

/-- An instruction makes at most one data access. -/
theorem dataAccess_length_le (d : Desc) (x : Byte) (s : State) : (dataAccess d x s).length ≤ 1 := by
  cases d <;> simp [dataAccess]

/-- Accesses change memory as their writes do, wherever they start from the same memory. -/
theorem applyAccesses_mem_congr (l : List Access) : ∀ {s t : State}, s.mem = t.mem →
    (applyAccesses l s).mem = (applyAccesses l t).mem := by
  induction l with
  | nil => exact id
  | cons a rest ih =>
    intro s t h
    cases a with
    | read x => exact ih h
    | write x v => exact ih (congrArg (Memory.insert · x.toNat v) h)

/-- The accesses of a step that fetches, and the memory it leaves: the opcode read, at most one read more, and
at most one data access, which alone gives the memory. -/
def FetchingAccesses (rom : Rom) (s : State) : Prop :=
  ∃ reads data, List.length reads ≤ 1 ∧ (∀ a ∈ reads, a.isWrite = false) ∧ List.length data ≤ 1 ∧
    stepAccesses rom s = .read s.ipByte :: (reads ++ data) ∧
    (stepWith rom s).1.mem = (applyAccesses data s).mem

/-- A step that reads the opcode only and leaves memory unchanged. -/
theorem FetchingAccesses.of_opcode_only {rom : Rom} {s : State}
    (haccess : stepAccesses rom s = [.read s.ipByte]) (hmem : (stepWith rom s).1.mem = s.mem) : FetchingAccesses rom s :=
  ⟨[], [], by simp, by simp, by simp, haccess, hmem⟩

/-- The accesses of a running state's step under any decode ROM. -/
theorem fetchingAccesses_of_running (rom : Rom) {s : State} (hrun : Running s) : FetchingAccesses rom s := by
  cases hrom : rom (fetchOpcode s) with
  | none => exact .of_opcode_only (stepAccesses_unbound hrun hrom) (by rw [stepWith_unbound hrun hrom]; rfl)
  | some e =>
    cases hfaults : operandFaults e.desc s with
    | true =>
      exact .of_opcode_only (stepAccesses_of_faults hrun hrom hfaults)
        (by rw [stepWith_bound hrun hrom, afterDesc_of_faults hfaults]; rfl)
    | false =>
      refine ⟨_, _, ?_, ?_, dataAccess_length_le _ _ _, stepAccesses_of_not_faults hrun hrom hfaults, ?_⟩
      · split <;> simp
      · split <;> simp [Access.isWrite]
      · rw [stepWith_bound hrun hrom, afterDesc_of_not_faults hfaults, executeDesc_mem]
        exact applyAccesses_mem_congr _ rfl

/-- Reads before other accesses change nothing. -/
theorem applyAccesses_append_of_reads {l : List Access} (hl : ∀ a ∈ l, a.isWrite = false) (d : List Access)
    (s : State) : applyAccesses (l ++ d) s = applyAccesses d s := by
  induction l with
  | nil => rfl
  | cons a rest ih =>
    cases a with
    | read x => exact ih fun a ha => hl a (.tail _ ha)
    | write x v => cases hl _ (.head _)

/-! ### The accesses of a step by byte -/

/-- Only loads, stores, calls and returns access data. -/
theorem dataAccess_eq_nil {d : Desc} (hmem : d.isMemory = false) (hsub : ¬ (d = .call ∨ d = .ret)) (x : Byte)
    (s : State) : dataAccess d x s = [] := by
  cases d <;> simp_all [dataAccess, Desc.isMemory]

/-- A byte outside the ranges of loads, stores, calls and returns has no data access. -/
theorem dataAccess_eq_nil_of_range {op : Byte} {e : RomEntry} (h : defaultRom op = some e)
    (hop : op.toNat < 0x23 ∨ 0x2A < op.toNat ∧ op.toNat < 0x30 ∨ 0x31 < op.toNat) (x : Byte) (s : State) :
    dataAccess e.desc x s = [] := by
  obtain ⟨-, -, hmem, -, hsub, -⟩ := defaultRom_hasCategoryOf h
  refine dataAccess_eq_nil ?_ ?_ x s
  · rw [← Bool.not_eq_true, hmem]
    omega
  · rw [hsub, ← BitVec.toNat_inj, ← BitVec.toNat_inj, BitVec.toNat_ofNat, BitVec.toNat_ofNat]
    omega

/-- A step that does not need an operand byte reads the opcode and makes its data access. -/
theorem stepAccesses_without_operand {s : State} {e : RomEntry} (hrun : Running s)
    (he : defaultRom (fetchOpcode s) = some e) (hneeds : needsOperand e.desc s = false) :
    stepAccesses defaultRom s =
      .read s.ipByte :: dataAccess e.desc (fetchNextByte s) (s.advance e.desc.length) := by
  rw [stepAccesses_of_not_faults hrun he (by simp [operandFaults, hneeds]), hneeds]
  rfl

/-- A step that needs its operand byte and finds it reads the opcode and the operand byte before its data
access. -/
theorem stepAccesses_with_operand {s : State} {e : RomEntry} (hrun : Running s) (hip : s.ip.toNat ≤ 0xFE)
    (he : defaultRom (fetchOpcode s) = some e) (hneeds : needsOperand e.desc s = true) :
    stepAccesses defaultRom s = .read s.ipByte :: .read (s.ipByte + 1#8) ::
      dataAccess e.desc (s.memRead (s.ipByte + 1#8)) (s.advance e.desc.length) := by
  have hfaults : operandFaults e.desc s = false := by
    rw [← Bool.not_eq_true, operandFaults_iff (by omega)]
    omega
  rw [stepAccesses_of_not_faults hrun he hfaults, hneeds, fetchNextByte_eq hip]
  rfl

/-- A step at an instruction without operand byte that accesses no data reads the opcode only. -/
theorem stepAccesses_one_byte {s : State} (hrun : Running s)
    (hop : OpcodeIn s 0x02 0x16 ∨ OpcodeIn s 0x1A 0x1F ∨ OpcodeIn s 0x3E 0x3F ∨ UnboundAt s) :
    stepAccesses defaultRom s = [.read s.ipByte] := by
  cases he : defaultRom (fetchOpcode s) with
  | none => exact stepAccesses_unbound hrun he
  | some e =>
    have hbound : ¬ UnboundAt s := by
      rw [← defaultRom_eq_none_iff, he]
      exact Option.some_ne_none e
    simp only [hbound, or_false, OpcodeIn] at hop
    have hneeds : needsOperand e.desc s = false := by
      rw [← Bool.not_eq_true, needsOperand_iff, defaultRom_length_eq_two_iff _ e he]
      omega
    rw [stepAccesses_without_operand hrun he hneeds, dataAccess_eq_nil_of_range he (by omega)]

/-- A step at an immediate instruction or `JMP` below the last cell reads the opcode and the operand byte. -/
theorem stepAccesses_two_byte {s : State} (hrun : Running s) (hip : s.ip.toNat ≤ 0xFE)
    (hop : OpcodeIn s 0x17 0x19 ∨ OpcodeIn s 0x20 0x22 ∨ OpcodeIn s 0x2B 0x2B) :
    stepAccesses defaultRom s = [.read s.ipByte, .read (s.ipByte + 1#8)] := by
  simp only [OpcodeIn] at hop
  obtain ⟨e, he, -⟩ := defaultRom_bound_of_range (op := fetchOpcode s) (by omega)
  have hneeds : needsOperand e.desc s = true := by
    rw [needsOperand_iff, defaultRom_length_eq_two_iff _ e he, ← Bool.not_eq_true, skipsOperand_iff_tested he]
    simp only [OpcodeIn]
    omega
  rw [stepAccesses_with_operand hrun hip he hneeds, dataAccess_eq_nil_of_range he (by omega)]

/-- A conditional jump reads its operand byte only when its flag is 1 (decision D8). -/
theorem stepAccesses_jcc_not_taken {s : State} (hrun : Running s) (hop : OpcodeIn s 0x2C 0x2F)
    (hnot : testedFlag s = false) : stepAccesses defaultRom s = [.read s.ipByte] := by
  obtain ⟨m, f, he, -⟩ := jcc_of_opcodeIn hop
  have hskip := (skipsOperand_iff_tested he).mpr ⟨hop, hnot⟩
  rw [stepAccesses_without_operand hrun he (by simp [needsOperand, hskip])]
  rfl

theorem stepAccesses_jcc_taken {s : State} (hrun : Running s) (hip : s.ip.toNat ≤ 0xFE)
    (hop : OpcodeIn s 0x2C 0x2F) (htaken : testedFlag s = true) :
    stepAccesses defaultRom s = [.read s.ipByte, .read (s.ipByte + 1#8)] := by
  obtain ⟨m, f, he, hf⟩ := jcc_of_opcodeIn hop
  rw [htaken] at hf
  rw [stepAccesses_with_operand hrun hip he (by simp [needsOperand, skipsOperand, Desc.mode, ← hf])]
  rfl

/-- A step at a two-byte instruction at the last cell reads the opcode only, whether its operand fetch faults
or its jump is not taken (decisions D7, D8). -/
theorem stepAccesses_last_cell {s : State} (hrun : Running s) (hip : s.ip = 0xFF#9)
    (hop : OpcodeIn s 0x17 0x19 ∨ OpcodeIn s 0x20 0x28 ∨ OpcodeIn s 0x2B 0x30) :
    stepAccesses defaultRom s = [.read s.ipByte] := by
  have hop' := hop
  simp only [OpcodeIn] at hop'
  obtain ⟨e, he, -⟩ := defaultRom_bound_of_range (op := fetchOpcode s) (by omega)
  have htwo := (defaultRom_length_eq_two_iff _ e he).mpr (by omega)
  cases hskip : skipsOperand e.desc s with
  | true =>
    obtain ⟨hjcc, hnot⟩ := (skipsOperand_iff_tested he).mp hskip
    exact stepAccesses_jcc_not_taken hrun hjcc hnot
  | false =>
    refine stepAccesses_of_faults hrun he ?_
    rw [operandFaults_iff (by simp [hip])]
    exact ⟨needsOperand_iff.mpr ⟨htwo, hskip⟩, by simp [hip]⟩

/-- The three bytes of the direct loads (30 R58). -/
theorem fetchOpcode_cases_load {s : State} (h : OpcodeIn s 0x23 0x25) :
    fetchOpcode s = 0x23#8 ∨ fetchOpcode s = 0x24#8 ∨ fetchOpcode s = 0x25#8 := by
  simp only [OpcodeIn] at h
  simp only [← BitVec.toNat_inj, BitVec.toNat_ofNat]
  omega

/-! ### The obligation -/

/-- Settles O23: the general clauses by the shape of the accesses under every decode ROM, the lists by the
default entry of each byte. -/
theorem accessesAccountForMemory : Obligations.AccessesAccountForMemory := by
  refine ⟨fun rom s => ?everyRom, fun s hrun => ⟨stepAccesses_one_byte hrun, fun hop => ?ldaC, fun hop => ?staC,
    fun hop => ?ret, fun hip => ⟨stepAccesses_two_byte hrun hip, fun hop => ?load, fun hop => ?sta,
    fun hop => ?stb, fun hop => ?stc, fun hop => ?jcc, fun hop => ?call⟩, stepAccesses_last_cell hrun⟩⟩
  case everyRom =>
    cases hterm : s.terminal with
    | true =>
      rw [stepAccesses_terminal rom hterm, stepWith_terminal rom hterm]
      exact ⟨fun _ => rfl, by simp, by simp, by simp⟩
    | false =>
      obtain ⟨reads, data, hlen, hreads, hdata, haccess, hmem⟩ :=
        fetchingAccesses_of_running rom ((terminal_eq_false_iff s).mp hterm)
      have hfilter : (stepAccesses rom s).filter Access.isWrite = data.filter Access.isWrite := by
        simpa [haccess, Access.isWrite, List.filter_cons] using hreads
      refine ⟨memRead_congr ?mem, ?length, ?writes, fun _ => by rw [haccess, List.head?_cons]⟩
      case mem => rw [hmem, haccess, applyAccesses, applyAccesses_append_of_reads hreads]
      case length =>
        rw [haccess, List.length_cons, List.length_append]
        omega
      case writes => exact (congrArg List.length hfilter).le.trans ((List.length_filter_le _ data).trans hdata)
  case ldaC =>
    have he : defaultRom (fetchOpcode s) = some ⟨"LDA C", .load .A (some .C)⟩ := by rw [hop]; rfl
    rw [stepAccesses_without_operand hrun he rfl]
    rfl
  case staC =>
    have he : defaultRom (fetchOpcode s) = some ⟨"STA C", .store .A (some .C)⟩ := by rw [hop]; rfl
    rw [stepAccesses_without_operand hrun he rfl]
    rfl
  case ret =>
    have he : defaultRom (fetchOpcode s) = some ⟨"RET", .ret⟩ := by rw [hop]; rfl
    rw [stepAccesses_without_operand hrun he rfl]
    rfl
  case load =>
    have he : ∃ m r, defaultRom (fetchOpcode s) = some ⟨m, .load r none⟩ := by
      obtain h | h | h := fetchOpcode_cases_load hop <;> exact ⟨_, _, by rw [h]; rfl⟩
    obtain ⟨m, r, he⟩ := he
    rw [stepAccesses_with_operand hrun hip he rfl]
    rfl
  case sta =>
    have he : defaultRom (fetchOpcode s) = some ⟨"STA", .store .A none⟩ := by rw [hop]; rfl
    rw [stepAccesses_with_operand hrun hip he rfl]
    rfl
  case stb =>
    have he : defaultRom (fetchOpcode s) = some ⟨"STB", .store .B none⟩ := by rw [hop]; rfl
    rw [stepAccesses_with_operand hrun hip he rfl]
    rfl
  case stc =>
    have he : defaultRom (fetchOpcode s) = some ⟨"STC", .store .C none⟩ := by rw [hop]; rfl
    rw [stepAccesses_with_operand hrun hip he rfl]
    rfl
  case jcc =>
    split
    next htaken => exact stepAccesses_jcc_taken hrun hip hop htaken
    next hnot => exact stepAccesses_jcc_not_taken hrun hop (by simpa using hnot)
  case call =>
    have he : defaultRom (fetchOpcode s) = some ⟨"CALL", .call⟩ := by rw [hop]; rfl
    rw [stepAccesses_with_operand hrun hip he rfl]
    simp [dataAccess, Desc.length, Desc.mode]

end Sys2Proof.Machine
end

section
/-! SUPPORT. The ALU core as numbers and in closed form (40_alu.md R80 to R87) and the arithmetic and logic
instructions (40 R91 to R113). -/

namespace Sys2Proof.Machine

/-! ### What the core gives -/

/-- The core gives the result `res` and flags with these conditions of carry and overflow. -/
def CoreGives (fn : AluFn) (x y : Byte) (cin : Bool) (res : Byte) (carry overflow : Prop) : Prop :=
  (aluCore fn x y cin).res = res ∧ FlagsAre (aluCore fn x y cin).flags res carry overflow

theorem CoreGives.congr {fn : AluFn} {x y : Byte} {cin : Bool} {res : Byte}
    {carry carry' overflow overflow' : Prop} (h : CoreGives fn x y cin res carry overflow)
    (hcarry : carry ↔ carry') (hoverflow : overflow ↔ overflow') :
    CoreGives fn x y cin res carry' overflow' := by
  obtain ⟨hres, hflags⟩ := h
  exact ⟨hres, hflags.congr hcarry hoverflow⟩

/-- The flags also describe the core's own result. -/
theorem CoreGives.own_res {fn : AluFn} {x y : Byte} {cin : Bool} {res : Byte} {carry overflow : Prop}
    (h : CoreGives fn x y cin res carry overflow) :
    (aluCore fn x y cin).res = res ∧
      FlagsAre (aluCore fn x y cin).flags (aluCore fn x y cin).res carry overflow := by
  obtain ⟨rfl, hflags⟩ := h
  exact ⟨rfl, hflags⟩

/-- The core's flags from the widened value and the effective operand, for every function. -/
theorem aluCore_flagsAre (fn : AluFn) (x y : Byte) (cin : Bool) :
    FlagsAre (aluCore fn x y cin).flags (aluCore fn x y cin).res (255 < (aluWide fn x y cin).toNat)
      ((128 ≤ x.toNat ↔ 128 ≤ (aluEffective fn y).toNat) ∧
        ¬ (128 ≤ (aluWide fn x y cin).toNat % 256 ↔ 128 ≤ x.toNat)) :=
  aluFlags_flagsAre x (aluEffective fn y) (aluWide fn x y cin)

theorem aluCore_res_toNat (fn : AluFn) (x y : Byte) (cin : Bool) :
    (aluCore fn x y cin).res.toNat = (aluWide fn x y cin).toNat % 256 :=
  BitVec.toNat_setWidth 8 _

/-! ### Addition and subtraction -/

theorem coreGives_add (x y : Byte) :
    CoreGives .add x y false (x + y) (255 < x.toNat + y.toNat) (OutsideSigned (x.toInt + y.toInt)) := by
  have hflags := aluCore_add_flagsAre x y false
  rw [aluCore_add_res] at hflags
  refine ⟨aluCore_add_res x y, hflags.congr ?_ ?_⟩ <;> simp

/-- Subtraction is addition of the one's complement (decision D9). -/
theorem aluCore_sub_eq (x y : Byte) (cin : Bool) : aluCore .sub x y cin = aluCore .add x (~~~y) cin := rfl

theorem not_toNat (y : Byte) : (~~~y).toNat = 255 - y.toNat := BitVec.toNat_not

theorem not_toInt (y : Byte) : (~~~y).toInt = -y.toInt - 1 := by
  have hy := y.isLt
  simp only [BitVec.toInt_eq_toNat_cond, not_toNat]
  split <;> split <;> omega

/-- The result of a subtraction, with carry-in 1 for none less and 0 for one less. -/
theorem aluCore_sub_res (x y : Byte) (cin : Bool) :
    (aluCore .sub x y cin).res = x - y - (if cin then 0#8 else 1#8) := by
  apply BitVec.eq_of_toNat_eq
  have hx := x.isLt
  have hy := y.isLt
  have hwide : (aluCore .sub x y cin).res.toNat = (x.toNat + (255 - y.toNat) + cin.toNat) % 256 := by
    rw [aluCore_res_toNat, ← not_toNat, ← wideSum_toNat]
    rfl
  rw [hwide]
  cases cin <;> simp only [BitVec.toNat_sub, BitVec.toNat_ofNat, Bool.toNat_false, Bool.toNat_true, if_true,
    if_false, Bool.false_eq_true] <;> omega

/-- The flags of a subtraction: carry means "no borrow", and `V` is signed overflow. -/
theorem aluCore_sub_flagsAre (x y : Byte) (cin : Bool) :
    FlagsAre (aluCore .sub x y cin).flags (aluCore .sub x y cin).res (y.toNat < x.toNat + cin.toNat)
      (OutsideSigned (x.toInt - y.toInt - 1 + cin.toNat)) := by
  have hy := y.isLt
  have h := aluCore_add_flagsAre x (~~~y) cin
  rw [← aluCore_sub_eq, not_toNat, not_toInt] at h
  refine h.congr (by omega) ?_
  rw [show x.toInt + (-y.toInt - 1) + cin.toNat = x.toInt - y.toInt - 1 + cin.toNat by ring]

theorem coreGives_sub (x y : Byte) :
    CoreGives .sub x y true (x - y) (y.toNat ≤ x.toNat) (OutsideSigned (x.toInt - y.toInt)) := by
  have hres : (aluCore .sub x y true).res = x - y := by simp [aluCore_sub_res]
  have hflags := aluCore_sub_flagsAre x y true
  rw [hres] at hflags
  refine ⟨hres, hflags.congr Nat.lt_succ_iff ?_⟩
  simp

theorem coreGives_sub_one_more (x y : Byte) :
    CoreGives .sub x y false (x - y - 1#8) (y.toNat < x.toNat)
      (OutsideSigned (x.toInt - y.toInt - 1)) := by
  have hres : (aluCore .sub x y false).res = x - y - 1#8 := by simp [aluCore_sub_res]
  have hflags := aluCore_sub_flagsAre x y false
  rw [hres] at hflags
  refine ⟨hres, hflags.congr ?_ ?_⟩ <;> simp

/-- Adding the constant 1: carry and overflow at their single values (40 R87). -/
theorem coreGives_increment (x : Byte) :
    CoreGives .add x 0x01#8 false (x + 1#8) (x = 0xFF#8) (x = 0x7F#8) := by
  have hx := x.isLt
  refine (coreGives_add x 0x01#8).congr ?_ ?_
  all_goals
    simp only [OutsideSigned, BitVec.toInt_eq_toNat_cond, ← BitVec.toNat_inj, BitVec.toNat_ofNat]
    omega

/-- Subtracting the constant 1: carry and overflow at their single values (40 R87). -/
theorem coreGives_decrement (x : Byte) :
    CoreGives .sub x 0x01#8 true (x - 1#8) (x ≠ 0x00#8) (x = 0x80#8) := by
  have hx := x.isLt
  refine (coreGives_sub x 0x01#8).congr ?_ ?_
  all_goals
    simp only [OutsideSigned, BitVec.toInt_eq_toNat_cond, ← BitVec.toNat_inj, BitVec.toNat_ofNat, ne_eq]
    omega

/-! ### The logic functions -/

/-- A logic function gives its bitwise result without carry, and the overflow rule as written (decision
D11). -/
theorem coreGives_logic {fn : AluFn} {x y r : Byte} {cin : Bool} (hwide : aluWide fn x y cin = zext9 r) :
    CoreGives fn x y cin r False
      ((128 ≤ x.toNat ↔ 128 ≤ (aluEffective fn y).toNat) ∧ ¬ (128 ≤ r.toNat ↔ 128 ≤ x.toNat)) := by
  have hr := r.isLt
  have hres : (aluCore fn x y cin).res = r := by
    apply BitVec.eq_of_toNat_eq
    rw [aluCore_res_toNat, hwide, zext9_toNat, Nat.mod_eq_of_lt hr]
  have hflags := aluCore_flagsAre fn x y cin
  rw [hres, hwide, zext9_toNat, Nat.mod_eq_of_lt hr] at hflags
  exact ⟨hres, hflags.congr (iff_false_intro (by omega)) .rfl⟩

/-- Bit 7 of a byte, as the core's overflow rule reads it. -/
theorem getLsbD_seven_iff (v : Byte) : v.getLsbD 7 = true ↔ 128 ≤ v.toNat := getLsbD_top_iff v

theorem and_sign_iff (x y : Byte) : 128 ≤ (x &&& y).toNat ↔ 128 ≤ x.toNat ∧ 128 ≤ y.toNat := by
  rw [← getLsbD_seven_iff, ← getLsbD_seven_iff, ← getLsbD_seven_iff, BitVec.getLsbD_and, Bool.and_eq_true]

theorem or_sign_iff (x y : Byte) : 128 ≤ (x ||| y).toNat ↔ 128 ≤ x.toNat ∨ 128 ≤ y.toNat := by
  rw [← getLsbD_seven_iff, ← getLsbD_seven_iff, ← getLsbD_seven_iff, BitVec.getLsbD_or, Bool.or_eq_true]

theorem xor_sign_iff (x y : Byte) : 128 ≤ (x ^^^ y).toNat ↔ ¬ (128 ≤ x.toNat ↔ 128 ≤ y.toNat) := by
  rw [← getLsbD_seven_iff, ← getLsbD_seven_iff, ← getLsbD_seven_iff, BitVec.getLsbD_xor]
  cases x.getLsbD 7 <;> cases y.getLsbD 7 <;> decide

theorem coreGives_and (x y : Byte) : CoreGives .and x y false (x &&& y) False False := by
  refine (coreGives_logic rfl).congr .rfl ?_
  rw [and_sign_iff]
  simp only [aluEffective]
  tauto

theorem coreGives_or (x y : Byte) : CoreGives .or x y false (x ||| y) False False := by
  refine (coreGives_logic rfl).congr .rfl ?_
  rw [or_sign_iff]
  simp only [aluEffective]
  tauto

theorem coreGives_xor (x y : Byte) :
    CoreGives .xor x y false (x ^^^ y) False (128 ≤ x.toNat ∧ 128 ≤ y.toNat) := by
  refine (coreGives_logic rfl).congr .rfl ?_
  rw [xor_sign_iff]
  simp only [aluEffective]
  tauto

/-- The complement, with zero as second operand for the flags (decision D12). -/
theorem coreGives_not (x y : Byte) : CoreGives .not x y false (~~~x) False (x.toNat < 128) := by
  have hx := x.isLt
  refine (coreGives_logic rfl).congr .rfl ?_
  simp only [aluEffective, not_toNat, BitVec.toNat_ofNat]
  omega

/-! ### The obligations on the core -/

/-- Settles O29: the flag contract, with the effective operand and the widened value of each function as
numbers. -/
theorem aluCoreComputes : Obligations.AluCoreComputes := by
  intro fn x y cin
  have hres := aluCore_res_toNat fn x y cin
  have hflags := aluCore_flagsAre fn x y cin
  rw [← hres] at hflags
  cases fn with
  | add =>
    simp only [aluWide, aluEffective, wideSum_toNat] at hres hflags
    exact ⟨hres, hflags⟩
  | sub =>
    simp only [aluWide, aluEffective, wideSum_toNat, not_toNat] at hres hflags
    exact ⟨hres, hflags⟩
  | and | or | xor =>
    simp only [aluWide, aluEffective, zext9_toNat] at hres hflags
    exact ⟨hres, hflags⟩
  | not =>
    simp only [aluWide, aluEffective, zext9_toNat, not_toNat] at hres hflags
    exact ⟨hres, hflags⟩

/-- Settles O30: by what the core gives for each function. -/
theorem aluClosedForms : Obligations.AluClosedForms := by
  intro a b
  refine ⟨(coreGives_add a b).own_res, (coreGives_sub a b).own_res, (coreGives_sub_one_more a b).own_res,
    (coreGives_and a b).own_res, (coreGives_or a b).own_res, (coreGives_xor a b).own_res, ?not, ?inc, ?dec⟩
  case not =>
    obtain ⟨hres, hflags⟩ := (coreGives_not a b).own_res
    have ha := a.isLt
    have hnat : (aluCore .not a b false).res.toNat = 255 - a.toNat := by rw [hres, not_toNat]
    refine ⟨hnat, hflags, ?_⟩
    obtain ⟨hz, -⟩ := hflags
    rw [hz, hnat, ← BitVec.toNat_inj, BitVec.toNat_ofNat]
    omega
  case inc =>
    obtain ⟨-, -, -, hc, hv⟩ := coreGives_increment a
    exact ⟨hc, hv⟩
  case dec =>
    obtain ⟨-, -, -, hc, hv⟩ := coreGives_decrement a
    exact ⟨by rw [← Bool.not_eq_true, hc, not_not], hv⟩

/-! ### Instructions that complete -/

/-- An instruction whose operand byte lies in memory, or is not needed, does the action of its descriptor after
the pointer advance. -/
theorem exec_of_not_faults {i : Instr} {s : State} (h : operandFaults i.desc s = false) :
    exec i s = .next (executeDesc i.desc (i.operand.getD 0x00#8) (s.advance i.length)) := by
  rw [exec_eq_afterDesc i 0x00#8, afterDesc_of_not_faults h, desc_length]

/-- An instruction that fits in memory does not fault. -/
theorem operandFaults_of_fits {i : Instr} {s : State} (h : s.ip.toNat + i.length ≤ 256) :
    operandFaults i.desc s = false := by
  have hlen := desc_length i
  have hcases := desc_length_cases i.desc
  rw [← Bool.not_eq_true, operandFaults_iff (by omega), needsOperand_iff]
  omega

/-- An ALU instruction of `len` bytes has the whole effect of 40 R85, with what the core gives for its
operands. -/
theorem exec_alu_effect {i : Instr} {s : State} {m : Mode} {fn : AluFn} {cin wb : Bool} {ra : Reg}
    {rb dst : Option Reg} {len : Nat} {x y res : Byte} {carry overflow : Prop}
    (hdesc : i.desc = .alu m fn cin wb ra rb) (hlen : i.length = len)
    (hdst : (if wb then some ra else none) = dst) (hfaults : operandFaults i.desc s = false)
    (hx : s.readReg ra = x) (hy : aluOperand2 s m rb (i.operand.getD 0x00#8) = y)
    (hcore : CoreGives fn x y cin res carry overflow) :
    ∃ t, exec i s = .next t ∧ AluEffect s t len dst res carry overflow := by
  subst hlen hdst hx hy
  obtain ⟨rfl, hflags⟩ := hcore
  refine ⟨_, exec_of_not_faults hfaults, ?_⟩
  have hoperand : aluOperand2 (s.advance i.length) m rb (i.operand.getD 0x00#8) =
      aluOperand2 s m rb (i.operand.getD 0x00#8) := by
    cases rb <;> simp [aluOperand2]
  rw [hdesc, executeDesc, hoperand]
  exact aluAction_advance_effect wb i.length hflags

/-! ### The obligations on the instructions -/

/-- Settles O32: by the sum that the core gives. -/
theorem addFamilyResult : Obligations.AddFamilyResult := by
  intro s n i y len hmem hip
  simp only [List.mem_cons, Prod.mk.injEq, List.not_mem_nil, or_false] at hmem
  obtain ⟨rfl, rfl, rfl⟩ | ⟨rfl, rfl, rfl⟩ := hmem
  · exact exec_alu_effect rfl rfl rfl (operandFaults_of_fits hip) rfl rfl (coreGives_add s.a s.c)
  · exact exec_alu_effect rfl rfl rfl (operandFaults_of_fits hip) rfl rfl (coreGives_add s.a y)

/-- Settles O33: by the difference that the core gives. -/
theorem subtractFamilyResult : Obligations.SubtractFamilyResult := by
  intro s n i y len hmem hip
  simp only [List.mem_cons, Prod.mk.injEq, List.not_mem_nil, or_false] at hmem
  obtain ⟨rfl, rfl, rfl⟩ | ⟨rfl, rfl, rfl⟩ | ⟨rfl, rfl, rfl⟩ := hmem
  · exact exec_alu_effect rfl rfl rfl (operandFaults_of_fits hip) rfl rfl (coreGives_sub s.a s.b)
  · exact exec_alu_effect rfl rfl rfl (operandFaults_of_fits hip) rfl rfl (coreGives_sub s.a s.c)
  · exact exec_alu_effect rfl rfl rfl (operandFaults_of_fits hip) rfl rfl (coreGives_sub s.a y)

/-- Settles O34: the carry-in of the core is 0, whatever `F.C` holds. -/
theorem subtractOneMoreResult : Obligations.SubtractOneMoreResult := by
  intro s i y hmem _
  simp only [List.mem_cons, Prod.mk.injEq, List.not_mem_nil, or_false] at hmem
  obtain ⟨rfl, rfl⟩ | ⟨rfl, rfl⟩ := hmem
  · exact exec_alu_effect rfl rfl rfl rfl rfl rfl (coreGives_sub_one_more s.a s.b)
  · exact exec_alu_effect rfl rfl rfl rfl rfl rfl (coreGives_sub_one_more s.a s.c)

/-- Settles O35: by what the core gives for each logic function. -/
theorem logicFamilyResult : Obligations.LogicFamilyResult := by
  intro s i y res overflow h _
  simp only [List.mem_cons, Prod.mk.injEq, List.not_mem_nil, or_false] at h
  obtain ⟨⟨rfl, rfl⟩ | ⟨rfl, rfl⟩, rfl, hv⟩ | ⟨⟨rfl, rfl⟩ | ⟨rfl, rfl⟩, rfl, hv⟩ |
    ⟨⟨rfl, rfl⟩ | ⟨rfl, rfl⟩, rfl, hv⟩ := h
  · exact exec_alu_effect rfl rfl rfl rfl rfl rfl ((coreGives_and s.a s.b).congr .rfl hv.symm)
  · exact exec_alu_effect rfl rfl rfl rfl rfl rfl ((coreGives_and s.a s.c).congr .rfl hv.symm)
  · exact exec_alu_effect rfl rfl rfl rfl rfl rfl ((coreGives_or s.a s.b).congr .rfl hv.symm)
  · exact exec_alu_effect rfl rfl rfl rfl rfl rfl ((coreGives_or s.a s.c).congr .rfl hv.symm)
  · exact exec_alu_effect rfl rfl rfl rfl rfl rfl ((coreGives_xor s.a s.b).congr .rfl hv.symm)
  · exact exec_alu_effect rfl rfl rfl rfl rfl rfl ((coreGives_xor s.a s.c).congr .rfl hv.symm)

/-- Settles O36: a compare is a subtraction without write-back. -/
theorem compareResult : Obligations.CompareResult := by
  intro s n i y len hmem hip
  simp only [List.mem_cons, Prod.mk.injEq, List.not_mem_nil, or_false] at hmem
  obtain ⟨rfl, rfl, rfl⟩ | ⟨rfl, rfl, rfl⟩ | ⟨rfl, rfl, rfl⟩ := hmem
  · exact exec_alu_effect rfl rfl rfl (operandFaults_of_fits hip) rfl rfl (coreGives_sub s.a s.b)
  · exact exec_alu_effect rfl rfl rfl (operandFaults_of_fits hip) rfl rfl (coreGives_sub s.a s.c)
  · exact exec_alu_effect rfl rfl rfl (operandFaults_of_fits hip) rfl rfl (coreGives_sub s.a y)

/-- Settles O37: by the sum and the difference with the constant 1. -/
theorem incrementDecrementResult : Obligations.IncrementDecrementResult := by
  intro s r i _
  simp only [List.mem_cons, Prod.mk.injEq, List.not_mem_nil, or_false]
  refine ⟨?inr, ?dcr⟩
  case inr =>
    rintro (⟨rfl, rfl⟩ | ⟨rfl, rfl⟩ | ⟨rfl, rfl⟩)
    all_goals exact exec_alu_effect rfl rfl rfl rfl rfl rfl (coreGives_increment _)
  case dcr =>
    rintro (⟨rfl, rfl⟩ | ⟨rfl, rfl⟩ | ⟨rfl, rfl⟩)
    all_goals exact exec_alu_effect rfl rfl rfl rfl rfl rfl (coreGives_decrement _)

/-- `CMA` from any state, since it has no operand byte to fetch. -/
theorem exec_cma_effect (s : State) :
    ∃ t, exec .cma s = .next t ∧ AluEffect s t 1 (some .A) (~~~s.a) False (s.a.toNat < 128) :=
  exec_alu_effect rfl rfl rfl rfl rfl rfl (coreGives_not s.a 0x01#8)

/-- Settles O38: the second complement undoes the first. -/
theorem complementResult : Obligations.ComplementResult := by
  intro s _
  obtain ⟨t, ht, heffect⟩ := exec_cma_effect s
  obtain ⟨u, hu, hback, -⟩ := exec_cma_effect t
  obtain ⟨hregs, -⟩ := id heffect
  have ha : t.a = ~~~s.a := hregs .A
  have hback : u.a = ~~~t.a := hback .A
  exact ⟨t, ht, heffect, u, hu, by rw [hback, ha, BitVec.not_not]⟩

end Sys2Proof.Machine
end

section
/-! SUPPORT. Moves, loads, stores, jumps, calls, halt and the operand fetch at the last cell
(41_moves_and_immediate_loads.md, 42_memory_access.md, 43_branches.md, 44_call_return.md, 45_nop_halt.md,
60_exceptions.md R161). -/

namespace Sys2Proof.Machine

/-! ### Instructions that write a register -/

/-- An instruction whose action writes one register has that write and the pointer advance as its whole
effect. -/
theorem exec_register_write {i : Instr} {s : State} {d : Reg} {v : Byte} {len : Nat}
    (hlen : i.length = len) (hfaults : operandFaults i.desc s = false)
    (hact : executeDesc i.desc (i.operand.getD 0x00#8) (s.advance len) = (s.advance len).writeReg d v) :
    ∃ t, exec i s = .next t ∧ t.readReg d = v ∧ SameRegsBut [d] s t ∧ t.flags = s.flags ∧
      t.ip = s.ip + BitVec.ofNat 9 len ∧ SameMem s t ∧ SameLatches s t := by
  subst hlen
  refine ⟨_, exec_of_not_faults hfaults, ?_⟩
  rw [hact]
  refine ⟨by simp, fun r hr => ?others, by simp, by simp, fun x => by simp, by simp, by simp⟩
  case others =>
    have hne : d ≠ r := fun h => hr (by simp [h])
    simp [hne]

/-- Settles O39: a move writes its first register. -/
theorem moveResult : Obligations.MoveResult := by
  intro s d r i hmem _
  simp only [List.mem_cons, Prod.mk.injEq, List.not_mem_nil, or_false] at hmem
  obtain ⟨rfl, rfl, rfl⟩ | ⟨rfl, rfl, rfl⟩ | ⟨rfl, rfl, rfl⟩ | ⟨rfl, rfl, rfl⟩ | ⟨rfl, rfl, rfl⟩ |
    ⟨rfl, rfl, rfl⟩ := hmem
  all_goals exact exec_register_write rfl rfl rfl

/-- Settles O41: a load writes its register with the byte of the cell. -/
theorem loadResult : Obligations.LoadResult := by
  intro s x i d addr len hmem hip
  simp only [List.mem_cons, Prod.mk.injEq, List.not_mem_nil, or_false] at hmem
  obtain ⟨rfl, rfl, rfl, rfl⟩ | ⟨rfl, rfl, rfl, rfl⟩ | ⟨rfl, rfl, rfl, rfl⟩ | ⟨rfl, rfl, rfl, rfl⟩ := hmem
  all_goals exact exec_register_write rfl (operandFaults_of_fits hip) rfl

/-! ### The operand fetch at the last cell -/

/-- An instruction at the last cell that needs its operand byte takes the fault (60 R161). -/
theorem exec_faults_at_last_cell {i : Instr} {s : State} (hneeds : needsOperand i.desc s = true)
    (hip : s.ip = 0xFF#9) : ∃ t, exec i s = .next t ∧ FaultEntry s t .operandFetch := by
  have hfaults : operandFaults i.desc s = true :=
    (operandFaults_iff (by simp [hip])).mpr ⟨hneeds, by simp [hip]⟩
  refine ⟨_, exec_eq_afterDesc i 0x00#8 s, ?_⟩
  rw [afterDesc_of_faults hfaults]
  exact raise_after_opcode_faultEntry s .operandFetch

/-- Settles O40: below the last cell `MVI` writes its register, at the last cell it faults. -/
theorem immediateLoadResult : Obligations.ImmediateLoadResult := by
  refine ⟨fun _ => ⟨rfl, rfl⟩, rfl, rfl, fun s n i d hmem => ?_⟩
  simp only [List.mem_cons, Prod.mk.injEq, List.not_mem_nil, or_false] at hmem
  obtain ⟨rfl, rfl⟩ | ⟨rfl, rfl⟩ | ⟨rfl, rfl⟩ := hmem
  all_goals exact ⟨fun hip => exec_register_write rfl (operandFaults_of_fits hip) rfl,
    exec_faults_at_last_cell rfl⟩

/-! ### Stores -/

/-- Settles O42: a store writes the cell at its effective address. -/
theorem storeResult : Obligations.StoreResult := by
  intro s x i r rb len hmem hip hwf
  have heffect : operandFaults i.desc s = false ∧ i.length = len ∧
      executeDesc i.desc (i.operand.getD 0x00#8) (s.advance len) =
        storeAction r (effectiveAddr s rb x) (s.advance len) := by
    simp only [List.mem_cons, Prod.mk.injEq, List.not_mem_nil, or_false] at hmem
    obtain ⟨rfl, rfl, rfl, rfl⟩ | ⟨rfl, rfl, rfl, rfl⟩ | ⟨rfl, rfl, rfl, rfl⟩ | ⟨rfl, rfl, rfl, rfl⟩ := hmem
    all_goals exact ⟨operandFaults_of_fits hip, rfl, rfl⟩
  obtain ⟨hfaults, rfl, hact⟩ := heffect
  have hread (y : Byte) := storeAction_memRead r (effectiveAddr s rb x) (s.advance i.length) y hwf
  refine ⟨_, exec_of_not_faults hfaults, ?_⟩
  rw [hact]
  refine ⟨by simp [hread], fun y hy => by simp [hread, hy], fun q _ => by simp, by simp, by simp, by simp,
    by simp⟩

/-- `STA` below the last two cells, which stores `A` after the pointer advance. -/
theorem exec_sta {s : State} (x : Byte) (hip : s.ip.toNat + 2 ≤ 256) :
    exec (.sta x) s = .next (storeAction .A x (s.advance 2)) :=
  exec_of_not_faults (i := .sta x) (operandFaults_of_fits hip)

/-- Settles O43: the pointer after the store names the stored cell. -/
theorem storeIsSeenByNextFetch : Obligations.StoreIsSeenByNextFetch := by
  intro s t x i hrun hwf hip hx hexec hdecode
  obtain rfl := Host.Outcome.next.inj ((exec_sta x (by omega)).symm.trans hexec)
  obtain ⟨hfault, hhalted, -⟩ := hrun
  have hcell : (storeAction .A x (s.advance 2)).ipByte = x := (advance_ipByte s 2).trans hx.symm
  have hop : fetchOpcode (storeAction .A x (s.advance 2)) = s.a := by
    rw [fetchOpcode, hcell, storeAction_memRead .A x (s.advance 2) x hwf, if_pos rfl]
    rfl
  have hnext : (s.advance 2).ip.toNat ≤ 255 := by rwa [advance_ip_toNat (by omega)]
  have hterm : (storeAction .A x (s.advance 2)).terminal = false :=
    (terminal_eq_false_iff _).mpr ⟨hfault, hhalted, hnext⟩
  refine ⟨hop, step_ok hterm ?_⟩
  rw [fetchInstr_eq, hop, hdecode]

/-! ### Control transfers -/

/-- The descriptors that touch no register, flag, cell or latch: jumps, `RET` and `NOP`. -/
def MovesPointerOnly (d : Desc) : Prop := d.isJump = true ∨ d = .ret ∨ d = .nop

/-- What the action of such a descriptor leaves unchanged. -/
theorem executeDesc_frame_of_movesPointerOnly {d : Desc} (hd : MovesPointerOnly d) (x : Byte) (s : State) :
    SameRegsBut [] s (executeDesc d x s) ∧ (executeDesc d x s).flags = s.flags ∧
      SameMem s (executeDesc d x s) ∧ SameLatches s (executeDesc d x s) := by
  have hdest : ∀ r, d.dest ≠ some r := by cases d <;> simp_all [MovesPointerOnly, Desc.dest, Desc.isJump]
  have halu : d.isAlu = false := by cases d <;> simp_all [MovesPointerOnly, Desc.isAlu, Desc.isJump]
  have hmem : d.isMemory = false ∧ d ≠ .call := by
    cases d <;> simp_all [MovesPointerOnly, Desc.isMemory, Desc.isJump]
  have hhlt : d ≠ .hlt := by cases d <;> simp_all [MovesPointerOnly, Desc.isJump]
  refine ⟨fun r _ => executeDesc_readReg (hdest r) x s, executeDesc_flags halu x s, fun y => ?_, ?_,
    executeDesc_fault d x s⟩
  · refine executeDesc_memRead fun v hv => ?_
    cases d <;> simp_all [dataAccess, Desc.isMemory]
  · simp [executeDesc_halted, hhlt]

/-- The whole effect of an instruction that moves the pointer only and does not fault. -/
theorem exec_moves_pointer {i : Instr} {s : State} (hd : MovesPointerOnly i.desc) (hip : s.ip.toNat ≤ 255)
    (hfaults : operandFaults i.desc s = false) :
    ∃ t, exec i s = .next t ∧
      t.ip.toNat = (jumpTarget i.desc (i.operand.getD 0x00#8) s).elim (s.ip.toNat + i.length) BitVec.toNat ∧
      SameRegsBut [] s t ∧ t.flags = s.flags ∧ SameMem s t ∧ SameLatches s t := by
  refine ⟨_, exec_eq_afterDesc i 0x00#8 s, ?pointer, ?frame⟩
  case pointer =>
    have hfits : ¬ (needsOperand i.desc s = true ∧ s.ip.toNat = 255) := by
      rw [← operandFaults_iff hip, hfaults]
      decide
    rw [afterDesc_ip_toNat hip, if_neg hfits, desc_length]
  case frame =>
    rw [afterDesc_of_not_faults hfaults]
    exact executeDesc_frame_of_movesPointerOnly hd _ (s.advance i.desc.length)

/-- The whole effect of a conditional jump that does not fault. -/
theorem exec_jcc_effect {i : Instr} {s : State} {f : Flag} {x : Byte} {taken : Bool} (hd : i.desc = .jcc f)
    (hx : i.operand = some x) (hflag : s.readFlag f = taken)
    (hip : taken = true ∧ s.ip.toNat + 2 ≤ 256 ∨ taken = false ∧ s.ip.toNat + 1 ≤ 256) :
    ∃ t, exec i s = .next t ∧ t.ip.toNat = (if taken then x.toNat else s.ip.toNat + 2) ∧
      SameRegsBut [] s t ∧ t.flags = s.flags ∧ SameMem s t ∧ SameLatches s t := by
  have hlen : i.length = 2 := by simp [Instr.length, hx]
  have hfaults : operandFaults i.desc s = false := by
    obtain ⟨-, hfits⟩ | ⟨hnot, -⟩ := hip
    · exact operandFaults_of_fits (by omega)
    · simp [operandFaults, needsOperand, skipsOperand, hd, hflag, hnot]
  obtain ⟨t, ht, hpointer, hframe⟩ :=
    exec_moves_pointer (.inl (by simp [hd, Desc.isJump])) (by omega) hfaults
  refine ⟨t, ht, ?_, hframe⟩
  rw [hpointer, hd, jumpTarget, hflag, hx, hlen]
  cases taken <;> rfl

/-- Settles O44: by the effect of a conditional jump; `JMP` always goes to its operand byte. -/
theorem jumpDispatch : Obligations.JumpDispatch := by
  refine ⟨fun s x i taken hmem hip => ?jump, fun s hrun hop hnot => stepAccesses_jcc_not_taken hrun hop hnot⟩
  case jump =>
    simp only [List.mem_cons, Prod.mk.injEq, List.not_mem_nil, or_false] at hmem
    obtain ⟨rfl, rfl⟩ | ⟨rfl, rfl⟩ | ⟨rfl, rfl⟩ | ⟨rfl, rfl⟩ | ⟨rfl, rfl⟩ := hmem
    · have hfits : s.ip.toNat + 2 ≤ 256 := by simpa using hip
      exact exec_moves_pointer (i := .jmp x) (.inl rfl) (by omega) (operandFaults_of_fits hfits)
    · exact exec_jcc_effect (f := .S) rfl rfl rfl hip
    · exact exec_jcc_effect (f := .Z) rfl rfl rfl hip
    · exact exec_jcc_effect (f := .C) rfl rfl rfl hip
    · exact exec_jcc_effect (f := .V) rfl rfl rfl hip

/-- A conditional jump at the last cell: it faults when its flag is 1, and else goes past its operand byte. -/
theorem exec_jcc_at_last_cell {i : Instr} {s : State} {f : Flag} {x : Byte} (hd : i.desc = .jcc f)
    (hx : i.operand = some x) (hip : s.ip = 0xFF#9) :
    ∃ t, exec i s = .next t ∧ if s.readFlag f then FaultEntry s t .operandFetch
      else t.ip = 257#9 ∧ SameRegsBut [] s t ∧ t.flags = s.flags ∧ SameMem s t ∧ SameLatches s t := by
  cases hflag : s.readFlag f with
  | true => exact exec_faults_at_last_cell (by simp [needsOperand, Desc.mode, skipsOperand, hd, hflag]) hip
  | false =>
    obtain ⟨t, ht, hpointer, hframe⟩ := exec_jcc_effect hd hx hflag (.inr ⟨rfl, by simp [hip]⟩)
    exact ⟨t, ht, BitVec.eq_of_toNat_eq (by simpa [hip] using hpointer), hframe⟩

/-- Settles O51: fourteen forms always need their operand byte, a conditional jump when its flag is 1. -/
theorem operandFetchAtLastCell : Obligations.OperandFetchAtLastCell := by
  intro s n hip
  refine ⟨fun i hmem => exec_faults_at_last_cell ?needs hip, ?conditional⟩
  case needs => exact List.all_eq_true (p := fun i => needsOperand i.desc s).mp (by rfl) i hmem
  case conditional =>
    simp only [List.forall_mem_cons, List.not_mem_nil, false_imp_iff, implies_true, and_true]
    exact ⟨exec_jcc_at_last_cell (f := .S) rfl rfl hip, exec_jcc_at_last_cell (f := .Z) rfl rfl hip,
      exec_jcc_at_last_cell (f := .C) rfl rfl hip, exec_jcc_at_last_cell (f := .V) rfl rfl hip⟩

/-! ### Call and return -/

/-- `CALL` below the last cell (44 R151). -/
theorem exec_call {s : State} (x : Byte) (hip : s.ip.toNat + 2 ≤ 256) :
    exec (.call x) s = .next (callAction x (s.advance 2)) :=
  exec_of_not_faults (i := .call x) (operandFaults_of_fits hip)

/-- `RET`, at every address (44 R152). -/
theorem exec_ret (s : State) : exec .ret s = .next (retAction (s.advance 1)) := rfl

/-- `CALL` changes no cell but the return slot. -/
theorem callAction_sameMemBut (x : Byte) (s : State) (n : Nat) :
    SameMemBut Config.retSlot s (callAction x (s.advance n)) := fun y hy =>
  memRead_memWrite_ne (s.advance n) Config.retSlot _ y hy

/-- Settles O45: the call writes the slot and then the pointer. -/
theorem callResult : Obligations.CallResult := by
  intro s x hip hwf
  exact ⟨_, exec_call x hip, zext9_toNat x, callAction_retSlot x (by omega) hwf, callAction_sameMemBut x s 2,
    fun r _ => by simp, rfl, rfl, rfl⟩

/-- Settles O46: the return moves the pointer only. -/
theorem returnResult : Obligations.ReturnResult := by
  refine ⟨rfl, rfl, fun s hip => ?effect, fun s hrun hip hop => ?lastCell⟩
  case effect =>
    obtain ⟨t, ht, hpointer, hframe⟩ := exec_moves_pointer (i := .ret) (s := s) (.inr (.inl rfl)) (by omega) rfl
    have htarget : t.ip.toNat = (s.memRead 0xFF#8).toNat := hpointer
    have hlt := (s.memRead 0xFF#8).isLt
    exact ⟨t, ht, htarget, by omega, hframe⟩
  case lastCell =>
    have hfetch : fetchInstr s = .ok .ret := by
      rw [fetchInstr_eq, hop]
      rfl
    refine ⟨_, step_ok ((terminal_eq_false_iff s).mpr hrun) hfetch, ?_⟩
    have hslot : s.memRead Config.retSlot = 0x31#8 := by
      rw [← hop, fetchOpcode, State.ipByte, hip]
      rfl
    rw [retAction_ip, advance_memRead, hslot]
    rfl

/-- Settles O47: both returns read the slot that the call wrote. -/
theorem returnGoesAfterCall : Obligations.ReturnGoesAfterCall := by
  intro s u v w x hwf hip hcall hslot hret
  obtain rfl := Host.Outcome.next.inj ((exec_call x hip).symm.trans hcall)
  obtain rfl := Host.Outcome.next.inj ((exec_ret v).symm.trans hret)
  have hip' : (retAction (v.advance 1)).ip.toNat = (s.ip.toNat + 2) % 256 := by
    rw [retAction_ip, zext9_toNat, advance_memRead, hslot, callAction_retSlot x (by omega) hwf]
  refine ⟨fun hlow => ?_, fun hedge => ?_, fun r hr => ?_⟩
  · apply BitVec.eq_of_toNat_eq
    rw [hip', BitVec.toNat_add, BitVec.toNat_ofNat]
    omega
  · apply BitVec.eq_of_toNat_eq
    rw [hip', hedge]
    rfl
  · obtain rfl := Host.Outcome.next.inj ((exec_ret _).symm.trans hr)
    rfl

/-- Settles O48: the step at 0xFE executes `CALL` with the old content of the slot as its target. -/
theorem callAtReturnSlotEdge : Obligations.CallAtReturnSlotEdge := by
  intro s hrun hwf hip hop
  have hnat : s.ip.toNat = 254 := by rw [hip]; rfl
  have hoperand : fetchNextByte s = s.memRead 0xFF#8 := by
    rw [fetchNextByte_eq (by omega), State.ipByte, hip]
    rfl
  have hfetch : fetchInstr s = .ok (.call (s.memRead 0xFF#8)) := by
    rw [fetchInstr_eq, hop, hoperand]
    rfl
  refine ⟨_, (step_ok ((terminal_eq_false_iff s).mpr hrun) hfetch).trans (exec_call _ (by omega)),
    zext9_toNat _, ?slot, callAction_sameMemBut _ s 2⟩
  case slot =>
    apply BitVec.eq_of_toNat_eq
    rw [callAction_retSlot _ (by omega) hwf, hnat]
    rfl

/-! ### Halt -/

/-- `HLT` sets the latch after the pointer advance (45 R156). -/
theorem exec_hlt (s : State) : exec .hlt s = .next (s.advance 1).setHalted := rfl

/-- Settles O50: the halted state calls for `Halted` and is terminal. -/
theorem haltResult : Obligations.HaltResult := by
  refine ⟨fun s hip => ⟨_, exec_hlt s, rfl, rfl, advance_ip_toNat (by omega), fun r _ => by simp, rfl,
    fun _ => rfl⟩, fun s hrun hop => ?_⟩
  have hfetch : fetchInstr s = .ok .hlt := by
    rw [fetchInstr_eq, hop]
    rfl
  have hstep := (step_ok ((terminal_eq_false_iff s).mpr hrun) hfetch).trans (exec_hlt s)
  obtain ⟨hfault, -, -⟩ := hrun
  exact ⟨_, hstep, (status_halted_iff _).mpr ⟨hfault, rfl⟩, step_terminal (terminal_of_halted rfl)⟩

end Sys2Proof.Machine
end

section
/-! SUPPORT. Reset, load, host writes and runs (70_reset_and_hazards.md R180 to R184; 60_exceptions.md R172 to
R174; 30_encoding.md R62). -/

namespace Sys2Proof.Machine

/-! ### The host's operations -/

/-- Settles O53: 0x00 is unbound, so the first step with nothing loaded takes the fault. -/
theorem resetControlState : Obligations.ResetControlState := by
  have hrun : Running State.reset := ⟨rfl, rfl, by decide⟩
  have hunbound : UnboundAt State.reset := unboundAt_iff.mpr (.inl (by decide))
  exact ⟨rfl, rfl, rfl, hrun, hunbound, _, step_unbound hrun hunbound,
    raise_after_opcode_faultEntry State.reset .invalidOpcode⟩

/-- Settles O55: a load writes bytes and touches nothing but memory. -/
theorem loadCopiesProgram : Obligations.LoadCopiesProgram := by
  intro p s hlen hwf
  refine ⟨_, loadProgram_eq_ok_iff.mpr ⟨hlen, rfl⟩, fun addr => ?cells, ?rest⟩
  case cells =>
    rw [writeBytes_memRead p addr Config.loadBase s hwf (by rwa [Config.loadBase, Nat.zero_add])]
    simp
  case rest =>
    rw [writeBytes_changes_only_mem]
    exact ⟨fun r _ => by cases r <;> rfl, rfl, rfl, rfl, rfl⟩

/-- Settles O56: a host write is a memory write. -/
theorem hostWriteChangesOneCell : Obligations.HostWriteChangesOneCell := by
  intro s x v hwf
  have hread : (hostWrite x v s).memRead x = v := by
    rw [hostWrite, memRead_memWrite s x v x hwf, if_pos rfl]
  refine ⟨hread, fun y hy => memRead_memWrite_ne s x v y hy, fun r _ => memWrite_readReg s x v r, rfl, rfl,
    ⟨rfl, rfl⟩, ?fetch⟩
  case fetch =>
    rintro rfl
    exact hread

/-! ### Runs -/

/-- One step of a run: it ends with the result of the step's state, or goes on. -/
theorem run_succ_of_step {s t : State} (h : step s = .next t) (k : Nat) :
    run (k + 1) s = if status t = .continuing then run k t else some (t, status t) := by
  simp only [run, h]
  cases hst : status t <;> simp

/-- What a run that ended gives, and that more steps give the same. -/
theorem run_final {t : State} {r : StepResult} (m : Nat) : ∀ (k : Nat) (s : State), run k s = some (t, r) →
    r = status t ∧ r ≠ .continuing ∧ run (k + m) s = some (t, r)
  | 0, s, h => by cases h
  | k + 1, s, h => by
    have hstep := step_eq_stepWith s
    rw [run_succ_of_step hstep] at h
    rw [Nat.add_right_comm, run_succ_of_step hstep]
    split at h
    next hgo =>
      rw [if_pos hgo]
      exact run_final m k _ h
    next hend =>
      cases h
      exact ⟨rfl, hend, if_neg hend⟩

/-- Settles O57: by induction on the steps of the run. -/
theorem runResultIsFinal : Obligations.RunResultIsFinal := by
  intro k m s t r h
  obtain ⟨rfl, hend, hmore⟩ := run_final m k s h
  exact ⟨rfl, hend, (status_ne_continuing_iff t).mp hend, hmore⟩

end Sys2Proof.Machine
end
